-- ==== Sys2Proof/Word.lean ====
section
/-! DEFINITION. The two bit-vector types of the frame checksum validator: bytes of 8 bits and words of 16 bits
(00_scope.md R9). -/

namespace Sys2Proof

/-- A byte of the frame: 8 bits (R9). -/
abbrev Byte := BitVec 8

/-- A command word, a response datum or a status register: 16 bits (R9, R48). -/
abbrev Word := BitVec 16

end Sys2Proof
end

