-- ==== Sys2Proof/Config.lean ====
section
/-! DEFINITION. The configuration record of a block (00_scope.md R5): natural numbers fixed when the block is built,
and the constants the spec fixes for every block (R6, R33). No value here is a free value: the spec leaves none. -/

namespace Sys2Proof

/-- The configuration record `cfg` of R5; the names are the spec's. Widths are in bytes. -/
structure Config where
  /-- `NCAP`: frame buffer capacity in bytes. -/
  ncap : Nat
  /-- `H`: header size in bytes. -/
  h : Nat
  /-- `CNT_OFF`: byte offset of `face_count` within the header. -/
  cntOff : Nat
  /-- `CNT_W`: width of `face_count`. -/
  cntW : Nat
  /-- `R`: Face record stride in bytes. -/
  r : Nat
  /-- `M`: protocol maximum number of Face records. -/
  m : Nat
  offX1 : Nat
  offY1 : Nat
  offX2 : Nat
  offY2 : Nat
  wX1 : Nat
  wY1 : Nat
  wX2 : Nat
  wY2 : Nat
  offConf : Nat
  offFacing : Nat
  offRid : Nat
  offRconf : Nat
  /-- `W_RID`: width of `recognition_id`. -/
  wRid : Nat
  deriving DecidableEq, Repr

/-- The configuration `DEFAULT` of R8: a 39-byte frame with up to four 8-byte records. -/
def Config.default : Config where
  ncap := 39
  h := 5
  cntOff := 4
  cntW := 1
  r := 8
  m := 4
  offX1 := 0
  offY1 := 1
  offX2 := 2
  offY2 := 3
  wX1 := 1
  wY1 := 1
  wX2 := 1
  wY2 := 1
  offConf := 4
  offFacing := 5
  offRid := 6
  offRconf := 7
  wRid := 1

/-- Width of the checksum field in bytes (R6). -/
abbrev Config.checksumWidth : Nat := 2

/-- The register `ID` (R33). -/
def Config.idValue : Word := 0xFC16#16

/-- The register `VERSION` (R33). -/
def Config.versionValue : Word := 0x0001#16

end Sys2Proof
end

