-- ==== Sys2Proof/Machine/State.lean ====
section
/-! DEFINITION. The state of one block (10_state.md R13) as plain data, with the model's own three fields: the
configuration it was built with, the host's inputs it has not yet taken, and the response of its latest step. -/

namespace Sys2Proof.Machine

/-- `PHASE` (R18): bytes may be pushed, or a `DECODE` has frozen the buffer. -/
inductive Phase where
  /-- `LOAD` (0). -/
  | load
  /-- `DONE` (1). -/
  | done
  deriving DecidableEq, Repr

/-- `RESULT` (R21): the outcome of the last `DECODE`. The reserved codes 6 and 7 are never produced and have no
constructor (93_implementation_defined.md U5). -/
inductive DecodeResult where
  /-- 0 `NONE`. -/
  | none
  /-- 1 `OK`. -/
  | ok
  /-- 2 `TRUNCATED`. -/
  | truncated
  /-- 3 `CSUM_MISMATCH`. -/
  | csumMismatch
  /-- 4 `INVALID_COUNT`. -/
  | invalidCount
  /-- 5 `OVERRUN`. -/
  | overrun
  deriving DecidableEq, Repr

/-- `REJ` (R28, 60_exceptions.md R88): the reason of the last rejected command. Codes 6 and 7 are never produced. -/
inductive Reject where
  /-- 0 `NONE`. -/
  | none
  /-- 1 `ILLEGAL`. -/
  | illegal
  /-- 2 `FROZEN`. -/
  | frozen
  /-- 3 `OVERRUN`. -/
  | overrun
  /-- 4 `NOFACE`. -/
  | noFace
  /-- 5 `ITEREND`. -/
  | iterEnd
  deriving DecidableEq, Repr

/-- The response to a command (30_encoding.md R56). -/
structure Response where
  ack : Bool
  data : Word
  deriving DecidableEq, Repr

/-- What the host can present to the block: a word on the command port (R48) or the reset input (R101). -/
inductive HostInput where
  | command (w : Word)
  | reset
  deriving DecidableEq, Repr

/-- Why the model stops with a fault. A block has no traps (R94), and no command of the spec reaches either. -/
inductive Fault where
  /-- A read of buffer byte `addr` where the cell is unwritten or `addr ≥ LEN`, which has no value (R11, U1). Raised by
  `readByte`, so by `DECODE` and `RDF` in a state that no run reaches. Safe. -/
  | bufNoValue (addr : Nat)
  /-- A write to buffer address `addr ≥ NCAP`, where there is no cell (R16, R36). Raised by `bufWrite`, so by `PUSH` in
  a state with `LEN > NCAP`, which no run reaches. Safe. -/
  | bufNoCell (addr : Nat)
  deriving DecidableEq, Repr

/-- Why the model gives a step no meaning. -/
inductive Refusal where
  /-- An instruction whose meaning has not been written, named as the opcode table names it. No arm of `exec` raises
  it. Safe. -/
  | notModelled (mnemonic : String)
  /-- The configuration is ill-formed and the spec defines no step for it (00_scope.md R7, U2). Raised by `step`.
  Safe. -/
  | illFormedConfig
  deriving DecidableEq, Repr

/-- The frame buffer as (address, byte) pairs with rising addresses; an address that is not listed is unwritten, `⊥`
(R11, R16). -/
abbrev Memory := List Host.Cell

/-- The six registers `DECODE` computes from the frame (R21 to R23, R25 to R27). -/
structure Verdict where
  result : DecodeResult
  count : Word
  rawCount : Word
  calcSum : Word
  expect : Word
  maxf : Word
  deriving DecidableEq, Repr

/-- The state of a block. From `buf` to `rej` it is the record of R13, each field under the spec's name; `cfg`, `port`
and `resp` are the model's own (log entries 1, 3 and 5). -/
structure State where
  /-- The configuration the block was built with (R5); no step writes it. -/
  cfg : Config
  /-- `BUF` (R16). -/
  buf : Memory
  /-- `LEN` (R17). -/
  len : Word
  /-- `PHASE` (R18). -/
  phase : Phase
  /-- `OVF` (R19). -/
  ovf : Bool
  /-- `ILL` (R20). -/
  ill : Bool
  /-- `RESULT` (R21). -/
  result : DecodeResult
  /-- `COUNT` (R22). -/
  count : Word
  /-- `RAWCOUNT` (R23). -/
  rawCount : Word
  /-- `IDX` (R24). -/
  idx : Word
  /-- `CALC` (R25). -/
  calcSum : Word
  /-- `EXPECT` (R26). -/
  expect : Word
  /-- `MAXF` (R27). -/
  maxf : Word
  /-- `REJ` (R28). -/
  rej : Reject
  /-- The inputs the host has presented and the block has not yet taken, oldest first (R44, R48, R101). -/
  port : List HostInput
  /-- The response the latest step gave, if it gave one (R56, R101). -/
  resp : Option Response
  deriving DecidableEq, Repr

/-- The reset values of R35 for a block built with configuration `c`, with nothing presented by the host and no
response given. -/
def State.resetFor (c : Config) : State where
  cfg := c
  buf := []
  len := 0#16
  phase := .load
  ovf := false
  ill := false
  result := .none
  count := 0#16
  rawCount := 0#16
  idx := 0#16
  calcSum := 0#16
  expect := 0#16
  maxf := 0#16
  rej := .none
  port := []
  resp := none

/-- The machine right after reset, in the configuration `DEFAULT` (R8, R35). DESIGN CHOICE: the configuration is a
parameter of the spec, and this one is the block a run from reset is made with (log entry 2). -/
def State.reset : State := State.resetFor Config.default

end Sys2Proof.Machine
end

