-- ==== Sys2Proof/Machine/Flags.lean ====
section
/-! DEFINITION. The words and flags computed from the state and never stored: `AVAIL` (10_state.md R30), the codes of
`RESULT`, `REJ` and `PHASE`, and the `STATUS` word (R29). -/

namespace Sys2Proof.Machine

/-- The code of an outcome (R21). -/
def DecodeResult.code : DecodeResult → BitVec 3
  | .none => 0#3
  | .ok => 1#3
  | .truncated => 2#3
  | .csumMismatch => 3#3
  | .invalidCount => 4#3
  | .overrun => 5#3

/-- The code of a rejection reason (60_exceptions.md R88). -/
def Reject.code : Reject → BitVec 3
  | .none => 0#3
  | .illegal => 1#3
  | .frozen => 2#3
  | .overrun => 3#3
  | .noFace => 4#3
  | .iterEnd => 5#3

/-- The bit of a phase (R18). -/
def Phase.bit : Phase → BitVec 1
  | .load => 0#1
  | .done => 1#1

/-- `AVAIL`: a Face record is current (R30). -/
def avail (s : State) : Bool := decide (s.result = .ok) && decide (s.idx.toNat < s.count.toNat)

/-- `STATUS = {0b000000000, AVAIL, ILL, OVF, PHASE, RESULT}` (R29). -/
def status (s : State) : Word :=
  0#9 ++ BitVec.ofBool (avail s) ++ BitVec.ofBool s.ill ++ BitVec.ofBool s.ovf ++ s.phase.bit ++ s.result.code

end Sys2Proof.Machine
end

