-- ==== Sys2Proof/Syntax.lean ====
section
/-! DEFINITION. The commands of the block as syntax: one constructor of `Instr` per row of the opcode map
(30_encoding.md R50), with field selects and register indices as names, so that the machine never sees a raw encoding. -/

namespace Sys2Proof

/-- The eight Face fields `RDF` selects (30_encoding.md R53). -/
inductive Field where
  | x1 | y1 | x2 | y2 | conf | facing | rid | rconf
  deriving DecidableEq, Repr

/-- The fifteen registers `RDREG` reads (10_state.md R31). -/
inductive Reg where
  | status | len | count | rawCount | idx | calcSum | expect | maxf | rej
  | cfgNcap | cfgH | cfgR | cfgM | id | version
  deriving DecidableEq, Repr

/-- The commands (R50). Every term is a legal command: an operand outside its form's legal values (R49) is no term of
this type, and the decoder refuses its word by name. -/
inductive Instr where
  /-- `NOP` (R60). -/
  | nop
  /-- `CLEAR` (R61). -/
  | clear
  /-- `PUSH b` (R62). -/
  | push (b : Byte)
  /-- `DECODE` (R65). -/
  | decode
  /-- `NEXT` (R82). -/
  | next
  /-- `REWIND` (R83). -/
  | rewind
  /-- `RDF f` (R81). -/
  | rdf (f : Field)
  /-- `RDREG g` (R86). -/
  | rdreg (g : Reg)
  deriving DecidableEq, Repr

end Sys2Proof
end

