-- ==== Sys2Proof/WellFormed.lean ====
section
/-! DEFINITION. Well-formedness. A configuration is well-formed when every range of the table of 00_scope.md R5 holds
(R7). An instruction needs no check of its own: every term of `Instr` is legal (see Syntax.lean), and a word that
spells none is refused by the decoder. -/

namespace Sys2Proof

/-- A field width is 1 or 2 bytes (R5). -/
def Config.widthOk (w : Nat) : Bool := w == 1 || w == 2

/-- A field of width `w` at offset `off` lies inside a record: `off + w ≤ R` (R5). -/
def Config.fieldFits (c : Config) (off w : Nat) : Bool := decide (off + w ≤ c.r)

/-- `H + 2 ≤ NCAP ≤ 65535` (R5). -/
def Config.capacityOk (c : Config) : Bool := decide (c.h + 2 ≤ c.ncap) && decide (c.ncap ≤ 65535)

/-- `CNT_W ∈ {1, 2}` and `CNT_OFF + CNT_W ≤ H` (R5). -/
def Config.countFieldOk (c : Config) : Bool := Config.widthOk c.cntW && decide (c.cntOff + c.cntW ≤ c.h)

/-- `1 ≤ R ≤ 65535` and `M ≤ 65535` (R5). -/
def Config.recordOk (c : Config) : Bool := decide (1 ≤ c.r) && decide (c.r ≤ 65535) && decide (c.m ≤ 65535)

/-- The four bounding-box fields: widths 1 or 2, each inside the record (R5). -/
def Config.boxOk (c : Config) : Bool :=
  Config.widthOk c.wX1 && c.fieldFits c.offX1 c.wX1 && Config.widthOk c.wY1 && c.fieldFits c.offY1 c.wY1 &&
    (Config.widthOk c.wX2 && c.fieldFits c.offX2 c.wX2 && Config.widthOk c.wY2 && c.fieldFits c.offY2 c.wY2)

/-- The three byte fields, and `recognition_id` of width 1 or 2, each inside the record (R5, R6). -/
def Config.identityOk (c : Config) : Bool :=
  c.fieldFits c.offConf 1 && c.fieldFits c.offFacing 1 && c.fieldFits c.offRconf 1 &&
    (Config.widthOk c.wRid && c.fieldFits c.offRid c.wRid)

/-- A configuration is well-formed when every range of R5 holds (R7). Fields may overlap. -/
def Config.wf (c : Config) : Bool :=
  c.capacityOk && c.countFieldOk && c.recordOk && c.boxOk && c.identityOk

end Sys2Proof
end

