-- ==== Sys2Proof/Machine/Ops.lean ====
section
/-! DEFINITION. The named operations over the frame buffer and the registers: reading and writing a buffer cell
(00_scope.md R10, R11), the little-endian read `LE` and the byte sum, the response, and the rejection path that stands
where other machines take an exception (60_exceptions.md R87, R94). -/

namespace Sys2Proof.Machine

/-- The byte at a cell, or `none` where the cell is `⊥` (R11, R16). -/
def Memory.read : Memory → Nat → Option Byte
  | [], _ => none
  | (k, b) :: rest, a => if k = a then some b else Memory.read rest a

/-- Write one cell, keeping the addresses rising (R10 `BufWrite`). -/
def Memory.write : Memory → Nat → Byte → Memory
  | [], a, v => [(a, v)]
  | (k, b) :: rest, a, v =>
    if a < k then (a, v) :: (k, b) :: rest
    else if a = k then (a, v) :: rest
    else (k, b) :: Memory.write rest a v

/-- The canonical form: addresses strictly rising. An unlisted address is `⊥`, which no entry can equal. -/
def Memory.wf : Memory → Bool
  | [] => true
  | [_] => true
  | (k, _) :: (k', b') :: rest => decide (k < k') && Memory.wf ((k', b') :: rest)

/-- `Buf(a)`: defined only for `a < LEN` on a written cell; otherwise the model faults (R10, R11). -/
def readByte (s : State) (a : Nat) : Except Fault Byte :=
  if a < s.len.toNat then
    match Memory.read s.buf a with
    | some b => .ok b
    | none => .error (.bufNoValue a)
  else .error (.bufNoValue a)

/-- `LE(a, w) = Σ_{k<w} Buf(a + k) · 256^k` (R10, 20_memory.md R37). -/
def readLE (s : State) (a : Nat) : Nat → Except Fault Nat
  | 0 => .ok 0
  | w + 1 => do
    let low ← readByte s a
    let high ← readLE s (a + 1) w
    .ok (low.toNat + 256 * high)

/-- `Σ_{i<n} Buf(i)` as a natural number (41_validate.md R64). -/
def sumBytes (s : State) : Nat → Except Fault Nat
  | 0 => .ok 0
  | n + 1 => do
    let sum ← sumBytes s n
    let b ← readByte s n
    .ok (sum + b.toNat)

/-- `BufWrite(a, v)`: the buffer has the cells `0 .. NCAP-1` and no other (R10, R16). -/
def bufWrite (s : State) (a : Nat) (v : Byte) : Except Fault State :=
  if a < s.cfg.ncap then .ok { s with buf := Memory.write s.buf a v } else .error (.bufNoCell a)

/-- `respond(ack, data)` (30_encoding.md R56). -/
def respond (ack : Bool) (data : Word) (s : State) : State := { s with resp := some ⟨ack, data⟩ }

/-- The response of every accepted command but `RDF` and `RDREG`: `STATUS` on the state after the command (R56). -/
def accept (s : State) : State := respond true (status s) s

/-- The rejection path `reject(r)`: `REJ <- r`, and `ILL <- 1` for an illegal word, then `STATUS` on the state after
these writes (60_exceptions.md R87). -/
def reject (r : Reject) (s : State) : State :=
  let t := { s with rej := r, ill := s.ill || decide (r = .illegal) }
  respond false (status t) t

/-- A word that spells no command takes the rejection path with reason 1 (30_encoding.md R51 to R54). -/
def rejectIllegal (s : State) : State := reject .illegal s

/-- Every state component at its reset value; the configuration, and what the host has still to send, stay
(40_frame_load.md R61, 70_reset_and_hazards.md R101). -/
def clearState (s : State) : State := { State.resetFor s.cfg with port := s.port }

/-- The reset input: the effect of `CLEAR` on the state, and no response (70_reset_and_hazards.md R101). -/
def takeReset (s : State) : State := clearState s

/-- No input is waiting: the block holds its state (60_exceptions.md R100) and gives no response. -/
def idle (s : State) : State := { s with resp := none }

/-- The six registers `DECODE` computes, as one record. -/
def State.verdict (s : State) : Verdict :=
  ⟨s.result, s.count, s.rawCount, s.calcSum, s.expect, s.maxf⟩

/-- Write the six registers `DECODE` computes. -/
def State.setVerdict (s : State) (v : Verdict) : State :=
  { s with result := v.result, count := v.count, rawCount := v.rawCount, calcSum := v.calcSum, expect := v.expect,
           maxf := v.maxf }

/-- The registers of a stage not reached are 0 (10_state.md R22, R23, R25 to R27). -/
def Verdict.only (r : DecodeResult) : Verdict := ⟨r, 0#16, 0#16, 0#16, 0#16, 0#16⟩

/-- A computation that may fault becomes an outcome of the step. -/
def ofExcept (r : Except Fault State) : Host.Outcome State Fault Refusal :=
  match r with
  | .ok s => .next s
  | .error f => .fault f

/-- No step is defined for an ill-formed configuration: it is refused (00_scope.md R7, U2). -/
def guardConfig (s : State) (k : State → Host.Outcome State Fault Refusal) : Host.Outcome State Fault Refusal :=
  if s.cfg.wf then k s else .refused .illFormedConfig

end Sys2Proof.Machine
end

