-- ==== Sys2Proof/Machine/FrameLoad.lean ====
section
/-! DEFINITION. The frame load commands (40_frame_load.md): `NOP`, `CLEAR` and `PUSH`. -/

namespace Sys2Proof.Machine

/-- `NOP` (R60). -/
def execNop (s : State) : Host.Outcome State Fault Refusal := .next (accept s)

/-- `CLEAR` (R61). -/
def execClear (s : State) : Host.Outcome State Fault Refusal := .next (accept (clearState s))

/-- Append one byte: `BUF[LEN] <- b; LEN <- LEN + 1` (R62). -/
def appendByte (b : Byte) (s : State) : Except Fault State := do
  let t ← bufWrite s s.len.toNat b
  .ok { t with len := t.len + 1#16 }

/-- `PUSH b` (R62): the frozen check comes before the overrun check (R91). -/
def execPush (b : Byte) (s : State) : Host.Outcome State Fault Refusal :=
  if s.phase = .done then .next (reject .frozen s)
  else if s.len.toNat = s.cfg.ncap then .next (reject .overrun { s with ovf := true })
  else ofExcept ((appendByte b s).map accept)

end Sys2Proof.Machine
end

