-- ==== Sys2Proof/Decode.lean ====
section
/-! DEFINITION. The decoder of 30_encoding.md R57, total on the 16-bit words and rejecting by name, the encoder of the
opcode map R50, and the map itself as rows of pattern and mask. Decoding reads no state (R55, R57). -/

namespace Sys2Proof

/-- Why a word spells no command; each is the one rejection reason ILLEGAL of 60_exceptions.md R88. -/
inductive DecodeReject where
  /-- The opcode is 0x08 .. 0xFF (R51). -/
  | reservedOpcode
  /-- A form-Z opcode with a non-zero operand (R52). -/
  | nonzeroOperand
  /-- `RDF` with `x[7:4] ≠ 0` or `x[3:0] ∈ 8 .. 15` (R53). -/
  | fieldSelect
  /-- `RDREG` with an index 0x0F .. 0xFF (R54). -/
  | registerIndex
  deriving DecidableEq, Repr

/-- The select number of a field (R53). -/
def Field.select : Field → Nat
  | .x1 => 0
  | .y1 => 1
  | .x2 => 2
  | .y2 => 3
  | .conf => 4
  | .facing => 5
  | .rid => 6
  | .rconf => 7

/-- The field a select number names; 8 and above name none (R53). -/
def Field.ofSelect : Nat → Option Field
  | 0 => some .x1
  | 1 => some .y1
  | 2 => some .x2
  | 3 => some .y2
  | 4 => some .conf
  | 5 => some .facing
  | 6 => some .rid
  | 7 => some .rconf
  | _ => none

/-- The index of a register (10_state.md R31). -/
def Reg.index : Reg → Nat
  | .status => 0x00
  | .len => 0x01
  | .count => 0x02
  | .rawCount => 0x03
  | .idx => 0x04
  | .calcSum => 0x05
  | .expect => 0x06
  | .maxf => 0x07
  | .rej => 0x08
  | .cfgNcap => 0x09
  | .cfgH => 0x0A
  | .cfgR => 0x0B
  | .cfgM => 0x0C
  | .id => 0x0D
  | .version => 0x0E

/-- The register an index names; 0x0F and above are reserved (10_state.md R31, R54). -/
def Reg.ofIndex : Nat → Option Reg
  | 0x00 => some .status
  | 0x01 => some .len
  | 0x02 => some .count
  | 0x03 => some .rawCount
  | 0x04 => some .idx
  | 0x05 => some .calcSum
  | 0x06 => some .expect
  | 0x07 => some .maxf
  | 0x08 => some .rej
  | 0x09 => some .cfgNcap
  | 0x0A => some .cfgH
  | 0x0B => some .cfgR
  | 0x0C => some .cfgM
  | 0x0D => some .id
  | 0x0E => some .version
  | _ => none

/-- `op = word[15:8]` (R48). -/
def opcodeOf (w : Word) : Byte := w.extractLsb' 8 8

/-- `x = word[7:0]` (R48). -/
def operandOf (w : Word) : Byte := w.extractLsb' 0 8

/-- Operand form Z: only `x = 0x00` is legal (R49, R52). -/
def decodeZ (x : Byte) (i : Instr) : Except DecodeReject Instr :=
  if x = 0#8 then .ok i else .error .nonzeroOperand

/-- Operand form F: `x[7:4] = 0` and `x[3:0] ≤ 7` (R49, R53). -/
def decodeF (x : Byte) : Except DecodeReject Instr :=
  if x.extractLsb' 4 4 = 0#4 then
    match Field.ofSelect (x.extractLsb' 0 4).toNat with
    | some f => .ok (.rdf f)
    | none => .error .fieldSelect
  else .error .fieldSelect

/-- Operand form G: `x ≤ 0x0E` (R49, R54). -/
def decodeG (x : Byte) : Except DecodeReject Instr :=
  match Reg.ofIndex x.toNat with
  | some g => .ok (.rdreg g)
  | none => .error .registerIndex

/-- Every 16-bit word is one command or is illegal (R57). -/
def decode (w : Word) : Except DecodeReject Instr :=
  match (opcodeOf w).toNat with
  | 0x00 => decodeZ (operandOf w) .nop
  | 0x01 => decodeZ (operandOf w) .clear
  | 0x02 => .ok (.push (operandOf w))
  | 0x03 => decodeZ (operandOf w) .decode
  | 0x04 => decodeZ (operandOf w) .next
  | 0x05 => decodeZ (operandOf w) .rewind
  | 0x06 => decodeF (operandOf w)
  | 0x07 => decodeG (operandOf w)
  | _ => .error .reservedOpcode

/-- The opcode of a command (R50). -/
def Instr.opcode : Instr → Byte
  | .nop => 0x00#8
  | .clear => 0x01#8
  | .push _ => 0x02#8
  | .decode => 0x03#8
  | .next => 0x04#8
  | .rewind => 0x05#8
  | .rdf _ => 0x06#8
  | .rdreg _ => 0x07#8

/-- The operand byte of a command (R49, R50). -/
def Instr.operand : Instr → Byte
  | .nop => 0#8
  | .clear => 0#8
  | .push b => b
  | .decode => 0#8
  | .next => 0#8
  | .rewind => 0#8
  | .rdf f => BitVec.ofNat 8 f.select
  | .rdreg g => BitVec.ofNat 8 g.index

/-- The word of a command: the opcode in the high byte, the operand in the low byte (R48, R50). -/
def encode (i : Instr) : Word := i.opcode ++ i.operand

/-- The mnemonic of a command as the opcode map spells it (R50). -/
def Instr.mnemonic : Instr → String
  | .nop => "NOP"
  | .clear => "CLEAR"
  | .push _ => "PUSH"
  | .decode => "DECODE"
  | .next => "NEXT"
  | .rewind => "REWIND"
  | .rdf _ => "RDF"
  | .rdreg _ => "RDREG"

/-- One row of the opcode map (R50): the word pattern, the mask of its fixed bits, and the largest operand byte the
row's range check lets through (0xFF where the map gives no range check). -/
structure OpRow where
  mnemonic : String
  pattern : Word
  mask : Word
  maxOperand : Nat
  deriving DecidableEq, Repr

/-- A word belongs to a row when its fixed bits are the pattern's and its operand passes the range check. -/
def OpRow.matchesWord (row : OpRow) (w : Word) : Bool :=
  w &&& row.mask == row.pattern && decide ((operandOf w).toNat ≤ row.maxOperand)

/-- The opcode map of R50, row by row. -/
def opcodeMap : List OpRow :=
  [⟨"NOP", 0x0000#16, 0xFFFF#16, 0xFF⟩,
   ⟨"CLEAR", 0x0100#16, 0xFFFF#16, 0xFF⟩,
   ⟨"PUSH", 0x0200#16, 0xFF00#16, 0xFF⟩,
   ⟨"DECODE", 0x0300#16, 0xFFFF#16, 0xFF⟩] ++
  [⟨"NEXT", 0x0400#16, 0xFFFF#16, 0xFF⟩,
   ⟨"REWIND", 0x0500#16, 0xFFFF#16, 0xFF⟩,
   ⟨"RDF", 0x0600#16, 0xFFF8#16, 0xFF⟩,
   ⟨"RDREG", 0x0700#16, 0xFF00#16, 0x0E⟩]

/-- The instruction the decoder reads from an opcode-table word of `nbits` bits; bits above `nbits` are 0. -/
def decodeTableWord (nbits w : Nat) : Option Instr :=
  match decode (BitVec.ofNat 16 (w % 2 ^ nbits)) with
  | .ok i => some i
  | .error _ => none

end Sys2Proof
end

