-- ==== Sys2Proof/Machine/Operands.lean ====
section
/-! DEFINITION. What the operands select: the field multiplexer (42_iterate.md R77 to R80) and the register map of
`RDREG` (10_state.md R31). -/

namespace Sys2Proof.Machine

/-- How a field's raw value becomes the 16-bit response (R78). -/
inductive FieldKind where
  | unsigned | boolean | signed
  deriving DecidableEq, Repr

/-- `OFF(f)` (R78). -/
def fieldOffset (c : Config) : Field → Nat
  | .x1 => c.offX1
  | .y1 => c.offY1
  | .x2 => c.offX2
  | .y2 => c.offY2
  | .conf => c.offConf
  | .facing => c.offFacing
  | .rid => c.offRid
  | .rconf => c.offRconf

/-- `W(f)` (R6, R78). -/
def fieldWidth (c : Config) : Field → Nat
  | .x1 => c.wX1
  | .y1 => c.wY1
  | .x2 => c.wX2
  | .y2 => c.wY2
  | .conf => 1
  | .facing => 1
  | .rid => c.wRid
  | .rconf => 1

/-- The kind of a field (R78). -/
def fieldKind : Field → FieldKind
  | .x1 => .unsigned
  | .y1 => .unsigned
  | .x2 => .unsigned
  | .y2 => .unsigned
  | .conf => .unsigned
  | .facing => .boolean
  | .rid => .signed
  | .rconf => .unsigned

/-- `base(i) = H + i · R` (R77). -/
def slotBase (c : Config) (i : Nat) : Nat := c.h + i * c.r

/-- `raw(i, f) = LE(base(i) + OFF(f), W(f))` (R79). -/
def fieldRaw (s : State) (i : Nat) (f : Field) : Except Fault Nat :=
  readLE s (slotBase s.cfg i + fieldOffset s.cfg f) (fieldWidth s.cfg f)

/-- `zext_16` (00_scope.md R9). -/
def zext16 (v : Nat) : Word := BitVec.ofNat 16 v

/-- `sext_16(v, n)`: the low `n` bits of `v`, read as two's complement and sign-extended (00_scope.md R9). -/
def sext16 (v n : Nat) : Word :=
  if v.testBit (n - 1) then BitVec.ofNat 16 (v % 2 ^ n + 2 ^ 16 - 2 ^ n) else BitVec.ofNat 16 (v % 2 ^ n)

/-- The conversion of a raw value by the field's kind; no range is checked (R80). -/
def convertField (c : Config) (f : Field) (raw : Nat) : Word :=
  match fieldKind f with
  | .unsigned => zext16 raw
  | .boolean => if raw = 0 then 0x0000#16 else 0x0001#16
  | .signed => sext16 raw (8 * c.wRid)

/-- `value(i, f)` (R80). -/
def fieldValue (s : State) (i : Nat) (f : Field) : Except Fault Word := do
  let raw ← fieldRaw s i f
  .ok (convertField s.cfg f raw)

/-- The register map (10_state.md R31, R33); narrower values are zero-extended. -/
def regValue (s : State) : Reg → Word
  | .status => status s
  | .len => s.len
  | .count => s.count
  | .rawCount => s.rawCount
  | .idx => s.idx
  | .calcSum => s.calcSum
  | .expect => s.expect
  | .maxf => s.maxf
  | .rej => s.rej.code.zeroExtend 16
  | .cfgNcap => BitVec.ofNat 16 s.cfg.ncap
  | .cfgH => BitVec.ofNat 16 s.cfg.h
  | .cfgR => BitVec.ofNat 16 s.cfg.r
  | .cfgM => BitVec.ofNat 16 s.cfg.m
  | .id => Config.idValue
  | .version => Config.versionValue

end Sys2Proof.Machine
end

