-- ==== Sys2Proof/Machine/Iterate.lean ====
section
/-! DEFINITION. The Face record iterator and the reads (42_iterate.md): `RDF`, `NEXT`, `REWIND` and `RDREG`. -/

namespace Sys2Proof.Machine

/-- `RDF f` (R81). -/
def execRdf (f : Field) (s : State) : Host.Outcome State Fault Refusal :=
  if avail s then ofExcept ((fieldValue s s.idx.toNat f).map fun v => respond true v s)
  else .next (reject .noFace s)

/-- `NEXT` (R82). -/
def execNext (s : State) : Host.Outcome State Fault Refusal :=
  if avail s then .next (accept { s with idx := s.idx + 1#16 }) else .next (reject .iterEnd s)

/-- `REWIND` (R83). -/
def execRewind (s : State) : Host.Outcome State Fault Refusal := .next (accept { s with idx := 0#16 })

/-- `RDREG g` (R86): no state changes (10_state.md R32). -/
def execRdreg (g : Reg) (s : State) : Host.Outcome State Fault Refusal := .next (respond true (regValue s g) s)

end Sys2Proof.Machine
end

