-- ==== Sys2Proof/Machine/Validate.lean ====
section
/-! DEFINITION. Frame validation (41_validate.md): the checksum, the stages of `DECODE` in their order, and the
command. -/

namespace Sys2Proof.Machine

/-- `csum16`: the byte sum over `[0, LEN-2)` mod 65536 (R64). -/
def csum16 (s : State) : Except Fault Word := do
  let sum ← sumBytes s (s.len.toNat - Config.checksumWidth)
  .ok (BitVec.ofNat 16 sum)

/-- `LE(LEN-2, 2)`: the checksum the frame carries (R68). -/
def carriedChecksum (s : State) : Except Fault Word := do
  let v ← readLE s (s.len.toNat - Config.checksumWidth) Config.checksumWidth
  .ok (BitVec.ofNat 16 v)

/-- `LE(CNT_OFF, CNT_W)`: the header's face count (R70). -/
def headerCount (s : State) : Except Fault Nat := readLE s s.cfg.cntOff s.cfg.cntW

/-- `min(M, (LEN - H - 2) div R)` (R71). -/
def maxFaces (c : Config) (len : Nat) : Nat := min c.m ((len - c.h - Config.checksumWidth) / c.r)

/-- The count check and its outcome (R72). -/
def countStage (calcSum expect : Word) (raw maxf : Nat) : Verdict :=
  if raw > maxf then ⟨.invalidCount, 0#16, BitVec.ofNat 16 raw, calcSum, expect, BitVec.ofNat 16 maxf⟩
  else ⟨.ok, BitVec.ofNat 16 raw, BitVec.ofNat 16 raw, calcSum, expect, BitVec.ofNat 16 maxf⟩

/-- The stages of `DECODE` in order; the first that fails decides (R65 to R72, 60_exceptions.md R90). -/
def validate (s : State) : Except Fault Verdict :=
  if s.ovf then .ok (Verdict.only .overrun)
  else if s.len.toNat < s.cfg.h + Config.checksumWidth then .ok (Verdict.only .truncated)
  else do
    let calcSum ← csum16 s
    let expect ← carriedChecksum s
    if calcSum ≠ expect then .ok ⟨.csumMismatch, 0#16, 0#16, calcSum, expect, 0#16⟩
    else do
      let raw ← headerCount s
      .ok (countStage calcSum expect raw (maxFaces s.cfg s.len.toNat))

/-- `DECODE` (R65): always accepted; `BUF`, `LEN`, `OVF`, `ILL` and `REJ` stay. -/
def execDecode (s : State) : Host.Outcome State Fault Refusal :=
  ofExcept ((validate s).map fun v => accept { s.setVerdict v with phase := .done, idx := 0#16 })

end Sys2Proof.Machine
end

