-- ==== Sys2Proof/Machine/Dispatch.lean ====
section
/-! DEFINITION. The meaning of each command, one arm per constructor of `Instr` (30_encoding.md R50). -/

namespace Sys2Proof.Machine

def exec (i : Instr) (s : State) : Host.Outcome State Fault Refusal :=
  match i with
  | .nop => Sys2Proof.Machine.execNop s
  | .clear => Sys2Proof.Machine.execClear s
  | .push b => Sys2Proof.Machine.execPush b s
  | .decode => Sys2Proof.Machine.execDecode s
  | .next => Sys2Proof.Machine.execNext s
  | .rewind => Sys2Proof.Machine.execRewind s
  | .rdf f => Sys2Proof.Machine.execRdf f s
  | .rdreg g => Sys2Proof.Machine.execRdreg g s

end Sys2Proof.Machine
end

