-- ==== Sys2Proof/Machine/Port.lean ====
section
/-! DEFINITION. Taking the host's inputs: a word of the command port, the reset input, or nothing
(30_encoding.md R48, 70_reset_and_hazards.md R101). -/

namespace Sys2Proof.Machine

/-- A command word, after it has left the port: decoded, then executed or rejected as illegal (R57, 60_exceptions.md
R91). -/
def runWord (w : Word) (s : State) : Host.Outcome State Fault Refusal :=
  match decode w with
  | .ok i => exec i s
  | .error _ => .next (rejectIllegal s)

/-- Take the oldest input, or hold the state where there is none; commands take effect one at a time, in the order
the port receives them (20_memory.md R44). -/
def takeInput (s : State) : Host.Outcome State Fault Refusal :=
  match s.port with
  | [] => .next (idle s)
  | .reset :: rest => .next (takeReset { s with port := rest })
  | .command w :: rest => runWord w { s with port := rest }

/-- The state with the word `w` put on the port ahead of what the host sends later. -/
def presentWord (w : Word) (s : State) : State := { s with port := .command w :: s.port }

end Sys2Proof.Machine
end

