-- ==== Sys2Proof/Machine/Step.lean ====
section
/-! DEFINITION. One step of the block: it takes the oldest input the host has presented (20_memory.md R42, R44). The
block fetches nothing (10_state.md R15); the command port is where its next command comes from (30_encoding.md R48). -/

namespace Sys2Proof.Machine

/-- One step; an ill-formed configuration has none (00_scope.md R7). -/
def step (s : State) : Host.Outcome State Fault Refusal := guardConfig s takeInput

/-- The state in which the host has put the word `w` on the port, so that the next step takes it; bits above `nbits`
are 0. -/
def State.withFetchWord (s : State) (nbits w : Nat) : State :=
  presentWord (BitVec.ofNat 16 (w % 2 ^ nbits)) s

end Sys2Proof.Machine
end

