-- ==== Sys2Proof/Machine/Blocks.lean ====
section
/-! DEFINITION. Several blocks side by side (60_exceptions.md R98): independent copies, each with its own
configuration, state and command stream. -/

namespace Sys2Proof.Machine

/-- One step of block `k`; the others are left as they are. Which block moves next is free: it is an argument. -/
def stepBlock {n : Nat} (k : Fin n) (blocks : Vector State n) : Host.Outcome (Vector State n) Fault Refusal :=
  match step blocks[k] with
  | .next s => .next (blocks.set k s)
  | .fault f => .fault f
  | .refused r => .refused r

end Sys2Proof.Machine
end

