-- ==== Sys2Proof/Machine/Asm.lean ====
section
/-! DEFINITION. The assembler of 30_encoding.md: the syntax of R58 and the pseudo-instructions of R59. It makes command
words and reads no state of the block. Text is a list of characters. -/

namespace Sys2Proof.Asm

/-- Why the assembler refuses a line; it never wraps or truncates an operand (R58). -/
inductive AsmError where
  | unknownMnemonic | missingOperand | extraOperand | badOperand | outOfRange
  /-- `PUSHCS` with no `CLEAR` or `LOADF` before it (R59). -/
  | noFrameStart
  deriving DecidableEq, Repr

/-- A command or a pseudo-instruction (R58, R59). -/
inductive Command where
  | instr (i : Instr)
  | pushN (bs : List Byte)
  | pushW (v : Word)
  | pushZ (n : Nat)
  | pushCs
  | loadF (bs : List Byte)
  | rdFace
  deriving DecidableEq, Repr

/-- One line of assembly that emits something: a command, or `.word` with any word (R58). -/
inductive Line where
  | command (c : Command)
  | word (w : Word)
  deriving DecidableEq, Repr

/-! ### Expansion (R59) -/

/-- `PUSHN b0, ..., bk`. -/
def pushAll (bs : List Byte) : List Instr := bs.map Instr.push

/-- `PUSHW v`: low byte first. -/
def pushWord (v : Word) : List Instr := [.push (v.extractLsb' 0 8), .push (v.extractLsb' 8 8)]

/-- `RDFACE`: the eight fields in select order. -/
def readFace : List Instr :=
  [Instr.rdf .x1, Instr.rdf .y1, Instr.rdf .x2, Instr.rdf .y2] ++
    [Instr.rdf .conf, Instr.rdf .facing, Instr.rdf .rid, Instr.rdf .rconf]

/-- The commands a line stands for; `sum` is the sum of the `PUSH` operands since the most recent `CLEAR` or `LOADF`,
if there was one. -/
def expand (sum : Option Nat) : Command → Except AsmError (List Instr)
  | .instr i => .ok [i]
  | .pushN bs => .ok (pushAll bs)
  | .pushW v => .ok (pushWord v)
  | .pushZ n => .ok (List.replicate n (.push 0x00#8))
  | .pushCs =>
    match sum with
    | some v => .ok (pushWord (BitVec.ofNat 16 v))
    | none => .error .noFrameStart
  | .loadF bs => .ok (.clear :: pushAll bs)
  | .rdFace => .ok readFace

/-- The sum after one emitted command. -/
def trackSum (sum : Option Nat) : Instr → Option Nat
  | .clear => some 0
  | .push b => sum.map (· + b.toNat)
  | .nop => sum
  | .decode => sum
  | .next => sum
  | .rewind => sum
  | .rdf _ => sum
  | .rdreg _ => sum

/-- The words of a list of lines, from a given sum. -/
def assembleFrom (sum : Option Nat) : List Line → Except AsmError (List Word)
  | [] => .ok []
  | .word w :: rest => do
    let words ← assembleFrom sum rest
    .ok (w :: words)
  | .command c :: rest => do
    let emitted ← expand sum c
    let words ← assembleFrom (emitted.foldl trackSum sum) rest
    .ok (emitted.map encode ++ words)

/-- The words of a program: no `CLEAR` or `LOADF` stands before its first line. -/
def assembleLines (lines : List Line) : Except AsmError (List Word) := assembleFrom none lines

/-! ### Syntax (R58) -/

/-- White space inside a line. -/
def isBlank (c : Char) : Bool := c == ' ' || c == '\t' || c == '\r'

/-- Drop the blanks at both ends. -/
def trim (cs : List Char) : List Char := ((cs.dropWhile isBlank).reverse.dropWhile isBlank).reverse

/-- A `;` starts a comment that runs to the end of the line. -/
def stripComment (cs : List Char) : List Char := cs.takeWhile fun c => c != ';'

/-- Cut at every `sep`. -/
def splitAtChar (sep : Char) : List Char → List (List Char)
  | [] => [[]]
  | c :: cs =>
    match splitAtChar sep cs with
    | [] => [[c]]
    | part :: parts => if c = sep then [] :: part :: parts else (c :: part) :: parts

/-- The value of a hexadecimal digit, of either case; decimal digits are those below 10. -/
def digitValue (c : Char) : Option Nat :=
  if '0' ≤ c ∧ c ≤ '9' then some (c.toNat - '0'.toNat)
  else if 'a' ≤ c ∧ c ≤ 'f' then some (c.toNat - 'a'.toNat + 10)
  else if 'A' ≤ c ∧ c ≤ 'F' then some (c.toNat - 'A'.toNat + 10)
  else none

/-- The digits of a number in a base, most significant first. -/
def digits (base : Nat) : List Char → Nat → Option Nat
  | [], v => some v
  | c :: cs, v =>
    match digitValue c with
    | some d => if d < base then digits base cs (v * base + d) else none
    | none => none

/-- A number in decimal or `0x` hexadecimal (R58). -/
def number : List Char → Option Nat
  | [] => none
  | '0' :: 'x' :: cs => if cs.isEmpty then none else digits 16 cs 0
  | cs => digits 10 cs 0

/-- A number below a bound; one at or above it is refused. -/
def boundedNumber (bound : Nat) (cs : List Char) : Except AsmError Nat :=
  match number cs with
  | some n => if n < bound then .ok n else .error .outOfRange
  | none => .error .badOperand

/-- A frame byte: 0 to 255. -/
def byteOperand (cs : List Char) : Except AsmError Byte := (boundedNumber 256 cs).map (BitVec.ofNat 8)

/-- One or more frame bytes, with commas between them. -/
def byteList : List (List Char) → Except AsmError (List Byte)
  | [] => .ok []
  | cs :: rest => do
    let b ← byteOperand (trim cs)
    let bs ← byteList rest
    .ok (b :: bs)

/-- The field names of R53. -/
def fieldName (cs : List Char) : Option Field :=
  match String.ofList cs with
  | "x1" => some .x1
  | "y1" => some .y1
  | "x2" => some .x2
  | "y2" => some .y2
  | "conf" => some .conf
  | "facing" => some .facing
  | "rid" => some .rid
  | "rconf" => some .rconf
  | _ => none

/-- The register names of 10_state.md R31. -/
def regName (cs : List Char) : Option Reg :=
  match String.ofList cs with
  | "STATUS" => some .status
  | "LEN" => some .len
  | "COUNT" => some .count
  | "RAWCOUNT" => some .rawCount
  | "IDX" => some .idx
  | "CALC" => some .calcSum
  | "EXPECT" => some .expect
  | "MAXF" => some .maxf
  | "REJ" => some .rej
  | "CFG_NCAP" => some .cfgNcap
  | "CFG_H" => some .cfgH
  | "CFG_R" => some .cfgR
  | "CFG_M" => some .cfgM
  | "ID" => some .id
  | "VERSION" => some .version
  | _ => none

/-- A field by its name or its number 0 to 7. -/
def fieldOperand (cs : List Char) : Except AsmError Field :=
  match fieldName cs with
  | some f => .ok f
  | none =>
    match number cs with
    | none => .error .badOperand
    | some n =>
      match Field.ofSelect n with
      | some f => .ok f
      | none => .error .outOfRange

/-- A register by its name or its number 0x00 to 0x0E. -/
def regOperand (cs : List Char) : Except AsmError Reg :=
  match regName cs with
  | some g => .ok g
  | none =>
    match number cs with
    | none => .error .badOperand
    | some n =>
      match Reg.ofIndex n with
      | some g => .ok g
      | none => .error .outOfRange

/-- The word of `.word 0xHHHH`: exactly four hexadecimal digits. -/
def wordOperand : List Char → Except AsmError Word
  | ['0', 'x', a, b, c, d] =>
    match digits 16 [a, b, c, d] 0 with
    | some n => .ok (BitVec.ofNat 16 n)
    | none => .error .badOperand
  | _ => .error .badOperand

/-- A command that takes no operand. -/
def noOperand (operand : List Char) (c : Command) : Except AsmError Line :=
  if operand.isEmpty then .ok (.command c) else .error .extraOperand

/-- A line whose operand text must not be empty. -/
def oneOperand {α : Type} (operand : List Char) (parse : List Char → Except AsmError α) (make : α → Line) :
    Except AsmError Line :=
  if operand.isEmpty then .error .missingOperand else (parse operand).map make

/-- A mnemonic, in capitals, with its operand text (R58, R59). -/
def parseCommand (mnemonic operand : List Char) : Except AsmError Line :=
  match String.ofList mnemonic with
  | "NOP" => noOperand operand (.instr .nop)
  | "CLEAR" => noOperand operand (.instr .clear)
  | "PUSH" => oneOperand operand byteOperand fun b => .command (.instr (.push b))
  | "DECODE" => noOperand operand (.instr .decode)
  | "NEXT" => noOperand operand (.instr .next)
  | "REWIND" => noOperand operand (.instr .rewind)
  | "RDF" => oneOperand operand fieldOperand fun f => .command (.instr (.rdf f))
  | "RDREG" => oneOperand operand regOperand fun g => .command (.instr (.rdreg g))
  | "PUSHN" => oneOperand operand (fun cs => byteList (splitAtChar ',' cs)) fun bs => .command (.pushN bs)
  | "PUSHW" => oneOperand operand (boundedNumber 65536) fun n => .command (.pushW (BitVec.ofNat 16 n))
  | "PUSHZ" =>
    oneOperand operand (fun cs => (number cs).elim (.error .badOperand) .ok) fun n => .command (.pushZ n)
  | "PUSHCS" => noOperand operand .pushCs
  | "LOADF" => oneOperand operand (fun cs => byteList (splitAtChar ',' cs)) fun bs => .command (.loadF bs)
  | "RDFACE" => noOperand operand .rdFace
  | ".WORD" => oneOperand operand wordOperand Line.word
  | _ => .error .unknownMnemonic

/-- One line of text; a line with nothing but blanks and a comment emits nothing. Mnemonics are case-insensitive. -/
def parseLine (text : List Char) : Except AsmError (List Line) :=
  let body := trim (stripComment text)
  if body.isEmpty then .ok []
  else
    (parseCommand ((body.takeWhile fun c => !isBlank c).map Char.toUpper)
      (trim (body.dropWhile fun c => !isBlank c))).map fun l => [l]

/-- The lines of a text, each parsed in turn. -/
def parseLines : List (List Char) → Except AsmError (List Line)
  | [] => .ok []
  | text :: rest => do
    let here ← parseLine text
    let later ← parseLines rest
    .ok (here ++ later)

/-- Assemble a text: one command per line (R58). -/
def assemble (text : List Char) : Except AsmError (List Word) := do
  let lines ← parseLines (splitAtChar '\n' text)
  assembleLines lines

end Sys2Proof.Asm
end

