-- ==== Sys2Proof/Safety.lean ====
section
/-! DEFINITION. What counts as a legal state of a block, and the spec's own reading of a frame in plain arithmetic: the
terms the claims about the machine use. Nothing here is used by the machine. -/

namespace Sys2Proof.Machine

/-- The states a block can be in. From reset every step keeps it, and no step from it stops. -/
structure State.Inv (s : State) : Prop where
  /-- The configuration is well-formed (R7). -/
  cfgWf : s.cfg.wf = true
  /-- The buffer is in its canonical form. -/
  bufWf : Memory.wf s.buf = true
  /-- The written cells are exactly `0 .. LEN-1` (R16, R63). -/
  filled : s.buf.map Prod.fst = List.range s.len.toNat
  /-- `0 ≤ LEN ≤ NCAP` (R17). -/
  lenCap : s.len.toNat ≤ s.cfg.ncap
  /-- `OVF = 1` implies `LEN = NCAP` (R66). -/
  ovfFull : s.ovf = true → s.len.toNat = s.cfg.ncap
  /-- In `LOAD` the decode registers hold their `CLEAR` values (R62). -/
  loadCleared : s.phase = .load → s.verdict = Verdict.only .none
  /-- In `DONE` the decode registers are what `DECODE` computes of the frozen buffer (R47, R73). -/
  doneVerdict : s.phase = .done → validate s = .ok s.verdict
  /-- `0 ≤ IDX ≤ COUNT` (R24). -/
  idxBound : s.idx.toNat ≤ s.count.toNat

/-- The bytes of the frame in the buffer are `f 0 .. f (LEN-1)` (R12 "frame"). -/
def HoldsFrame (s : State) (f : Nat → Byte) : Prop :=
  ∀ a, a < s.len.toNat → Memory.read s.buf a = some (f a)

/-- `Σ_{i<n} f(i)` (R9). -/
def frameSum (f : Nat → Byte) (n : Nat) : Nat := ∑ i ∈ Finset.range n, (f i).toNat

/-- `LE(a, w) = Σ_{k<w} f(a + k) · 256^k` (R10). -/
def frameLE (f : Nat → Byte) (a w : Nat) : Nat := ∑ k ∈ Finset.range w, (f (a + k)).toNat * 256 ^ k

/-- The registers `DECODE` leaves for a frame, written from R65 in plain arithmetic. -/
def frameVerdict (c : Config) (len : Nat) (ovf : Bool) (f : Nat → Byte) : Verdict :=
  let sum := frameSum f (len - 2) % 65536
  let carried := (f (len - 2)).toNat + 256 * (f (len - 1)).toNat
  let raw := frameLE f c.cntOff c.cntW
  let most := min c.m ((len - c.h - 2) / c.r)
  if ovf = true then ⟨.overrun, 0, 0, 0, 0, 0⟩
  else if len < c.h + 2 then ⟨.truncated, 0, 0, 0, 0, 0⟩
  else if sum ≠ carried then ⟨.csumMismatch, 0, 0, BitVec.ofNat 16 sum, BitVec.ofNat 16 carried, 0⟩
  else if raw > most then
    ⟨.invalidCount, 0, BitVec.ofNat 16 raw, BitVec.ofNat 16 sum, BitVec.ofNat 16 carried, BitVec.ofNat 16 most⟩
  else
    ⟨.ok, BitVec.ofNat 16 raw, BitVec.ofNat 16 raw, BitVec.ofNat 16 sum, BitVec.ofNat 16 carried,
      BitVec.ofNat 16 most⟩

/-- The 16-bit value of a field of slot `i` of a frame, one row of R78 a line, converted by R80. -/
def frameField (c : Config) (f : Nat → Byte) (i : Nat) : Field → Word
  | .x1 => BitVec.ofNat 16 (frameLE f (c.h + i * c.r + c.offX1) c.wX1)
  | .y1 => BitVec.ofNat 16 (frameLE f (c.h + i * c.r + c.offY1) c.wY1)
  | .x2 => BitVec.ofNat 16 (frameLE f (c.h + i * c.r + c.offX2) c.wX2)
  | .y2 => BitVec.ofNat 16 (frameLE f (c.h + i * c.r + c.offY2) c.wY2)
  | .conf => (f (c.h + i * c.r + c.offConf)).setWidth 16
  | .facing => if f (c.h + i * c.r + c.offFacing) = 0#8 then 0x0000#16 else 0x0001#16
  | .rid => (BitVec.ofNat (8 * c.wRid) (frameLE f (c.h + i * c.r + c.offRid) c.wRid)).signExtend 16
  | .rconf => (f (c.h + i * c.r + c.offRconf)).setWidth 16

/-- The words that spell a command, in plain arithmetic from the table of R50 and the operand forms of R49. -/
def spellsCommand (w : Word) : Bool :=
  let op := w.toNat / 256
  let x := w.toNat % 256
  decide ((op ∈ [0, 1, 3, 4, 5] ∧ x = 0) ∨ op = 2 ∨ (op = 6 ∧ x ≤ 7) ∨ (op = 7 ∧ x ≤ 0x0E))

/-- The command the latest step took was accepted. -/
def acked (s : State) : Prop := ∃ data, s.resp = some ⟨true, data⟩

/-- The command the latest step took was rejected. -/
def rejected (s : State) : Prop := ∃ data, s.resp = some ⟨false, data⟩

/-- The states reached from `start` by accepted `PUSH`es of the listed bytes, in push order, with any `NOP`, `RDREG`
or rejected command between them (R63). -/
inductive LoadRun (start : State) : List Byte → State → Prop where
  | start : LoadRun start [] start
  | pushed {bs : List Byte} {s t : State} {w : Word} {rest : List HostInput} {b : Byte} :
      LoadRun start bs s → s.port = .command w :: rest → decode w = .ok (.push b) → step s = .next t → acked t →
      LoadRun start (bs ++ [b]) t
  | between {bs : List Byte} {s t : State} {w : Word} {rest : List HostInput} :
      LoadRun start bs s → s.port = .command w :: rest → step s = .next t →
      (decode w = .ok .nop ∨ (∃ g, decode w = .ok (.rdreg g)) ∨ rejected t) →
      LoadRun start bs t

/-- What a command adds to the sum of the `PUSH` operands (R59). -/
def pushedValue : Instr → Nat
  | .nop => 0
  | .clear => 0
  | .push b => b.toNat
  | .decode => 0
  | .next => 0
  | .rewind => 0
  | .rdf _ => 0
  | .rdreg _ => 0

/-- `k` steps of the machine, each of which must answer a next state. -/
def stepMany : Nat → State → Host.Outcome State Fault Refusal
  | 0, s => .next s
  | k + 1, s =>
    match step s with
    | .next t => stepMany k t
    | .fault f => .fault f
    | .refused r => .refused r

/-- The state with the host about to send these words and nothing else. -/
def sending (words : List Word) (s : State) : State := { s with port := words.map HostInput.command }

end Sys2Proof.Machine
end

