-- ==== Sys2Proof/Certificates/Slice0/Obligations.lean ====
section
/-! DEFINITION. The statements about the frame checksum validator for the provers. Each says which rule of spec/ it
formalises, or what it is derived from. A statement holds for every configuration and every state its hypotheses let
in; `wf` says that the configuration is well-formed (00_scope.md R7), without which the block has no step. -/

open Sys2Proof Sys2Proof.Machine

/-! ### Encoding (30_encoding.md) -/

/-- Decoding and encoding agree in both directions, on all 65536 words and all operands (R50, R57). -/
def Obligations.DecodeIffEncode : Prop :=
  ∀ (w : Word) (i : Instr), decode w = .ok i ↔ w = encode i

/-- Words written out from the opcode map decode to the command they stand for (R50, R53). -/
def Obligations.OpcodeMapWordsDecode : Prop :=
  decode 0b0000000000000000#16 = .ok .nop ∧ decode 0b0000000100000000#16 = .ok .clear ∧
  decode 0b0000001010100101#16 = .ok (.push 0xA5#8) ∧ decode 0b0000001100000000#16 = .ok .decode ∧
  decode 0b0000010000000000#16 = .ok .next ∧ decode 0b0000010100000000#16 = .ok .rewind ∧
  decode 0b0000011000000110#16 = .ok (.rdf .rid) ∧ decode 0b0000011100001101#16 = .ok (.rdreg .id)

/-- R57: every word `{op, x}` decodes by its case, every word outside the cases is illegal, and decoding, which reads
no state, comes before any check of the state: an illegal word is rejected as illegal in every state. -/
def Obligations.DecodeFollowsItsCases : Prop :=
  ∀ op x : Byte,
    (op = 0x00 → x = 0 → decode (op ++ x) = .ok .nop) ∧
    (op = 0x01 → x = 0 → decode (op ++ x) = .ok .clear) ∧
    (op = 0x02 → decode (op ++ x) = .ok (.push x)) ∧
    (op = 0x03 → x = 0 → decode (op ++ x) = .ok .decode) ∧
    (op = 0x04 → x = 0 → decode (op ++ x) = .ok .next) ∧
    (op = 0x05 → x = 0 → decode (op ++ x) = .ok .rewind) ∧
    (op = 0x06 → ∀ f : Field, x.toNat = f.select → decode (op ++ x) = .ok (.rdf f)) ∧
    (op = 0x07 → ∀ g : Reg, x.toNat = g.index → decode (op ++ x) = .ok (.rdreg g)) ∧
    ((∃ i, decode (op ++ x) = .ok i) ↔
      (op.toNat ∈ [0, 1, 3, 4, 5] ∧ x = 0) ∨ op = 0x02 ∨ (op = 0x06 ∧ x.toNat ≤ 7) ∨
        (op = 0x07 ∧ x.toNat ≤ 0x0E)) ∧
    ∀ (s : State) (rest : List HostInput) (r : DecodeReject),
      s.cfg.wf = true → s.port = .command (op ++ x) :: rest → decode (op ++ x) = .error r →
      ∃ t, step s = .next t ∧ t.rej = .illegal ∧ rejected t

/-- The opcode map is the decoder: a word that decodes is matched, by pattern, mask and range check, by exactly one row
of R50's table, the row of its mnemonic; a row matches such a word only if it is that row; and a word that some row
matches decodes. -/
def Obligations.OpcodeRowsAreTheDecoder : Prop :=
  ∀ w : Word,
    (∀ i, decode w = .ok i →
      (∃ row, (opcodeMap.filter fun r => r.matchesWord w) = [row] ∧ row.mnemonic = i.mnemonic) ∧
      ∀ row ∈ opcodeMap, (row.matchesWord w = true ↔ row.mnemonic = i.mnemonic)) ∧
    ((∃ row ∈ opcodeMap, row.matchesWord w = true) → ∃ i, decode w = .ok i)

/-- R51, R52, R54 (and R87 for reason 1): a word that spells no command is rejected in every state: `ILL <- 1`,
`REJ <- 1`, `ack = 0` with the STATUS of the state after, and nothing else changes. -/
def Obligations.IllegalWordsAreRejected : Prop :=
  ∀ (s : State) (w : Word) (rest : List HostInput),
    s.cfg.wf = true → s.port = .command w :: rest → spellsCommand w = false →
    step s = .next
      (let u := { s with port := rest, ill := true, rej := .illegal }
       { u with resp := some ⟨false, status u⟩ })

/-! ### The step, reset and the configuration -/

/-- A command word at the head of the port that decodes to `i` is taken off the port and executed; nothing else
surrounds `exec` (R42, R44, R48). -/
def Obligations.StepRunsTheDecodedCommand : Prop :=
  ∀ (s : State) (w : Word) (rest : List HostInput) (i : Instr),
    s.cfg.wf = true → s.port = .command w :: rest → decode w = .ok i →
    step s = exec i { s with port := rest }

/-- Commands and resets are taken one at a time, oldest first: a step takes the head of the port and leaves the rest
(R44; the port as a list is the model's, log entry 3). -/
def Obligations.StepTakesTheOldestInput : Prop :=
  ∀ s t : State, step s = .next t → t.port = s.port.tail

/-- With nothing at the port the block holds its state and gives no response (R100; the response field is the
model's, log entries 5 and 6). -/
def Obligations.IdleStepHoldsState : Prop :=
  ∀ s : State, s.cfg.wf = true → s.port = [] → step s = .next { s with resp := none }

/-- R101: the reset input sets every state component to its reset value, leaves the configuration, gives no response,
and has on the state the effect of `CLEAR`. (That a reset is an entry of the model's port is log entry 4; what happens to
the entries behind it is no part of this statement.) -/
def Obligations.ResetInputRestoresResetValues : Prop :=
  ∀ (s : State) (rest : List HostInput), s.cfg.wf = true → s.port = .reset :: rest →
    ∃ t, step s = .next t ∧ t.cfg = s.cfg ∧ t.resp = none ∧
      (∀ a, Memory.read t.buf a = none) ∧ t.len = 0 ∧ t.phase = .load ∧ t.ovf = false ∧ t.ill = false ∧
      t.result = .none ∧ t.count = 0 ∧ t.rawCount = 0 ∧ t.idx = 0 ∧ t.calcSum = 0 ∧ t.expect = 0 ∧ t.maxf = 0 ∧
      t.rej = .none ∧
      ∃ u, exec .clear s = .next u ∧ t = { u with port := t.port, resp := t.resp }

/-- R35: the reset values of all state, and of the words computed from it, for a block of any configuration. -/
def Obligations.ResetStateHasResetValues : Prop :=
  ∀ c : Config,
    let s := State.resetFor c
    (∀ a, Memory.read s.buf a = none) ∧ s.len = 0 ∧ s.phase = .load ∧ s.ovf = false ∧ s.ill = false ∧
      s.result = .none ∧ s.count = 0 ∧ s.rawCount = 0 ∧ s.idx = 0 ∧ s.calcSum = 0 ∧ s.expect = 0 ∧ s.maxf = 0 ∧
      s.rej = .none ∧ status s = 0x0000#16 ∧ avail s = false ∧
      regValue s .cfgNcap = BitVec.ofNat 16 c.ncap ∧ regValue s .cfgH = BitVec.ofNat 16 c.h ∧
      regValue s .cfgR = BitVec.ofNat 16 c.r ∧ regValue s .cfgM = BitVec.ofNat 16 c.m ∧
      regValue s .id = 0xFC16#16 ∧ regValue s .version = 0x0001#16

/-- The model's choice of the block a run from reset is made with (log entry 2: DEFAULT, with the nineteen numbers of
R8's table; log entries 3 and 5: no input waiting, no response given). -/
def Obligations.ResetBlockIsTheDefaultOne : Prop :=
  State.reset = State.resetFor Config.default ∧ State.reset.port = [] ∧ State.reset.resp = none ∧
    (let c := Config.default
     c.wf = true ∧ c.ncap = 39 ∧ c.ncap = c.h + c.m * c.r + 2 ∧ c.h = 5 ∧ c.cntOff = 4 ∧ c.cntW = 1 ∧ c.r = 8 ∧
     c.m = 4 ∧ c.offX1 = 0 ∧ c.offY1 = 1 ∧ c.offX2 = 2 ∧ c.offY2 = 3 ∧ c.offConf = 4 ∧ c.offFacing = 5 ∧
     c.offRid = 6 ∧ c.offRconf = 7 ∧ c.wX1 = 1 ∧ c.wY1 = 1 ∧ c.wX2 = 1 ∧ c.wY2 = 1 ∧ c.wRid = 1)

/-- R7: a configuration is well-formed exactly when every range of R5's table holds, and an ill-formed one has no
step, whatever is at the port. -/
def Obligations.IllFormedConfigurationHasNoStep : Prop :=
  ∀ s : State,
    (s.cfg.wf = true ↔
      (s.cfg.h + 2 ≤ s.cfg.ncap ∧ s.cfg.ncap ≤ 65535) ∧
      (s.cfg.cntOff + s.cfg.cntW ≤ s.cfg.h ∧ s.cfg.cntW ∈ [1, 2]) ∧
      (1 ≤ s.cfg.r ∧ s.cfg.r ≤ 65535 ∧ s.cfg.m ≤ 65535) ∧
      (s.cfg.offX1 + s.cfg.wX1 ≤ s.cfg.r ∧ s.cfg.offY1 + s.cfg.wY1 ≤ s.cfg.r ∧
        s.cfg.offX2 + s.cfg.wX2 ≤ s.cfg.r ∧ s.cfg.offY2 + s.cfg.wY2 ≤ s.cfg.r) ∧
      (s.cfg.wX1 ∈ [1, 2] ∧ s.cfg.wY1 ∈ [1, 2] ∧ s.cfg.wX2 ∈ [1, 2] ∧ s.cfg.wY2 ∈ [1, 2]) ∧
      (s.cfg.offConf + 1 ≤ s.cfg.r ∧ s.cfg.offFacing + 1 ≤ s.cfg.r ∧ s.cfg.offRconf + 1 ≤ s.cfg.r) ∧
      (s.cfg.offRid + s.cfg.wRid ≤ s.cfg.r ∧ s.cfg.wRid ∈ [1, 2])) ∧
    (s.cfg.wf = false → step s = .refused .illFormedConfig)

/-- R33: the six constant registers read the configuration and the two constants, no step changes them, and no register
shows the field offsets and widths, `CNT_OFF` or `CNT_W`: every register reads the same whatever these are. -/
def Obligations.ConstantRegistersNeverChange : Prop :=
  (∀ s t : State, step s = .next t → t.cfg = s.cfg ∧
    regValue t .cfgNcap = BitVec.ofNat 16 s.cfg.ncap ∧ regValue t .cfgH = BitVec.ofNat 16 s.cfg.h ∧
    regValue t .cfgR = BitVec.ofNat 16 s.cfg.r ∧ regValue t .cfgM = BitVec.ofNat 16 s.cfg.m ∧
    regValue t .id = 0xFC16#16 ∧ regValue t .version = 0x0001#16) ∧
  ∀ (s : State) (c : Config) (g : Reg),
    c.ncap = s.cfg.ncap → c.h = s.cfg.h → c.r = s.cfg.r → c.m = s.cfg.m →
    regValue { s with cfg := c } g = regValue s g

/-! ### STATUS and responses -/

/-- The bits of `STATUS` and the value of `AVAIL` (10_state.md R29, R30). -/
def Obligations.StatusWordLayout : Prop :=
  ∀ s : State,
    (status s).extractLsb' 0 3 = s.result.code ∧ (status s).getLsbD 3 = decide (s.phase = .done) ∧
    (status s).getLsbD 4 = s.ovf ∧ (status s).getLsbD 5 = s.ill ∧ (status s).getLsbD 6 = avail s ∧
    (status s).extractLsb' 7 9 = 0#9 ∧
    (avail s = true ↔ s.result = .ok ∧ s.idx.toNat < s.count.toNat) ∧
    [DecodeResult.none, .ok, .truncated, .csumMismatch, .invalidCount, .overrun].map DecodeResult.code =
      [0, 1, 2, 3, 4, 5]

/-- R56: the response to every command: the field or register value for an accepted `RDF` or `RDREG`, otherwise
STATUS on the state after; and `DECODE` is accepted whatever it finds. -/
def Obligations.EveryCommandAnswersByTheRule : Prop :=
  ∀ (s t : State) (w : Word) (rest : List HostInput),
    s.port = .command w :: rest → step s = .next t →
    ∃ ack data, t.resp = some ⟨ack, data⟩ ∧
      (ack = false → data = status t) ∧
      (ack = true →
        match decode w with
        | .ok (.rdf f) => fieldValue s s.idx.toNat f = .ok data
        | .ok (.rdreg g) => data = regValue s g
        | .ok _ => data = status t
        | .error _ => False) ∧
      (decode w = .ok .decode → ack = true)

/-! ### Frame load (40_frame_load.md) -/

/-- R60: `NOP` changes nothing and responds `(1, STATUS)`; no other word with its opcode is a `NOP`. -/
def Obligations.NopRespondsStatus : Prop :=
  encode .nop = 0x0000#16 ∧
  (∀ s : State, exec .nop s = .next { s with resp := some ⟨true, status s⟩ }) ∧
  ∀ x : Byte, x ≠ 0 → decode (0x00#8 ++ x) = .error .nonzeroOperand

/-- R61: `CLEAR` sets every state component to its reset value and responds `(1, 0x0000)`; no other command clears
`OVF` or `ILL` or leaves `PHASE = DONE`. -/
def Obligations.ClearStartsANewFrame : Prop :=
  encode .clear = 0x0100#16 ∧
  (∀ s : State, ∃ t, exec .clear s = .next t ∧ t.cfg = s.cfg ∧ t.port = s.port ∧
    t.resp = some ⟨true, 0x0000#16⟩ ∧ status t = 0x0000#16 ∧
    (∀ a, Memory.read t.buf a = none) ∧ t.len = 0 ∧ t.phase = .load ∧ t.ovf = false ∧ t.ill = false ∧
    t.result = .none ∧ t.count = 0 ∧ t.rawCount = 0 ∧ t.idx = 0 ∧ t.calcSum = 0 ∧ t.expect = 0 ∧ t.maxf = 0 ∧
    t.rej = .none) ∧
  ∀ (i : Instr) (s t : State), exec i s = .next t →
    (s.ovf = true ∧ t.ovf = false ∨ s.ill = true ∧ t.ill = false ∨ s.phase = .done ∧ t.phase = .load) →
    i = .clear

/-- R62: `PUSH b` by its three cases. Frozen: reason 2 and nothing else. Full: `OVF <- 1`, reason 3, the byte dropped.
Otherwise `b` is written at `LEN`, every other cell reads as before and `LEN` is one more. -/
def Obligations.PushAppendsOrRejects : Prop :=
  ∀ (s : State) (b : Byte),
    encode (.push b) = 0x02#8 ++ b ∧
    (s.phase = .done →
      exec (.push b) s = .next
        (let u := { s with rej := .frozen }
         { u with resp := some ⟨false, status u⟩ })) ∧
    (s.phase = .load → s.len.toNat = s.cfg.ncap →
      exec (.push b) s = .next
        (let u := { s with ovf := true, rej := .overrun }
         { u with resp := some ⟨false, status u⟩ })) ∧
    (s.cfg.wf = true → s.phase = .load → s.len.toNat < s.cfg.ncap →
      (s.len + 1#16).toNat = s.len.toNat + 1 ∧
      ∃ m : Memory,
        exec (.push b) s = .next
          (let u := { s with buf := m, len := s.len + 1#16 }
           { u with resp := some ⟨true, status u⟩ }) ∧
        Memory.read m s.len.toNat = some b ∧
        ∀ a, a ≠ s.len.toNat → Memory.read m a = Memory.read s.buf a)

/-- The load loop (the spec's own inference: R63 is marked derived from R61 and R62): after reset or `CLEAR` and `k`
accepted `PUSH`es, with any `NOP`, `RDREG` or rejected commands between them, `LEN = k` and the buffer holds the
pushed bytes in push order. -/
def Obligations.LoadedFrameIsThePushedBytes : Prop :=
  ∀ (s start t : State) (bs : List Byte),
    (step s = .next start ∧ ((∃ rest, s.port = .reset :: rest) ∨
        ∃ w rest, s.port = .command w :: rest ∧ decode w = .ok .clear) ∨
      start = { State.resetFor s.cfg with port := s.port }) →
    LoadRun start bs t →
    t.len.toNat = bs.length ∧ ∀ (i : Nat) (h : i < bs.length), readByte t i = .ok bs[i]

/-- What a frame load command leaves unchanged when it answers a next state: `NOP` everything, `PUSH` everything but
the cell at `LEN`, `LEN`, `OVF` and `REJ`, `CLEAR` the configuration and the waiting inputs; a `PUSH` that is rejected
leaves every byte (derived from R60 to R62, R87). -/
def Obligations.FrameLoadCommandsKeepTheRest : Prop :=
  (∀ s t : State, exec .nop s = .next t → t = { s with resp := t.resp }) ∧
  (∀ s t : State, exec .clear s = .next t → t.cfg = s.cfg ∧ t.port = s.port) ∧
  ∀ (b : Byte) (s t : State), exec (.push b) s = .next t →
    t = { s with buf := t.buf, len := t.len, ovf := t.ovf, rej := t.rej, resp := t.resp } ∧
    (∀ a, a ≠ s.len.toNat → Memory.read t.buf a = Memory.read s.buf a) ∧
    (rejected t → t.buf = s.buf ∧ t.len = s.len) ∧
    (acked t → t.ovf = s.ovf ∧ t.rej = s.rej)

/-! ### Validation (41_validate.md) -/

/-- R65 with its stages R66 to R72: `DECODE` of a frame whose bytes are `f 0 .. f (LEN-1)` leaves exactly the
registers the stages give in plain arithmetic, in `DONE`, at slot 0, and responds `(1, STATUS)`; `BUF`, `LEN`, `OVF`,
`ILL` and `REJ` stay. -/
def Obligations.DecodeFollowsItsStages : Prop :=
  encode .decode = 0x0300#16 ∧
  ∀ (s : State) (f : Nat → Byte), s.cfg.wf = true → HoldsFrame s f →
    exec .decode s = .next
      (let v := frameVerdict s.cfg s.len.toNat s.ovf f
       let u :=
        { s with phase := .done, idx := 0#16, result := v.result, count := v.count, rawCount := v.rawCount,
                 calcSum := v.calcSum, expect := v.expect, maxf := v.maxf }
       { u with resp := some ⟨true, status u⟩ })

/-- R66: with `OVF = 1` the result is `OVERRUN` and no byte is read (the buffer may hold anything, or nothing); in a
state a run can reach, `LEN = NCAP` then, so `TRUNCATED` cannot apply as well. -/
def Obligations.OverrunStageReadsNoByte : Prop :=
  (∀ s : State, s.ovf = true →
    exec .decode s = .next
      (let u :=
        { s with phase := .done, idx := 0#16, result := .overrun, count := 0#16, rawCount := 0#16, calcSum := 0#16,
                 expect := 0#16, maxf := 0#16 }
       { u with resp := some ⟨true, status u⟩ })) ∧
  ∀ s : State, s.Inv → s.ovf = true → s.len.toNat = s.cfg.ncap ∧ ¬ s.len.toNat < s.cfg.h + 2

/-- R67: a frame shorter than `H + 2` is `TRUNCATED` and no byte is read. -/
def Obligations.LengthStageReadsNoByte : Prop :=
  ∀ s : State, s.ovf = false → s.len.toNat < s.cfg.h + 2 →
    exec .decode s = .next
      (let u :=
        { s with phase := .done, idx := 0#16, result := .truncated, count := 0#16, rawCount := 0#16,
                 calcSum := 0#16, expect := 0#16, maxf := 0#16 }
       { u with resp := some ⟨true, status u⟩ })

/-- R64: the computed checksum is the byte sum over `[0, LEN-2)` mod 65536, and a 16-bit accumulator that wraps on
every addition, over the bytes in any order, gives the same. -/
def Obligations.AccumulatorGivesTheModularSum : Prop :=
  ∀ (s : State) (f : Nat → Byte), HoldsFrame s f → 2 ≤ s.len.toNat →
    csum16 s = .ok (BitVec.ofNat 16 (frameSum f (s.len.toNat - 2) % 65536)) ∧
    ∀ order : List Nat, order.Perm (List.range (s.len.toNat - 2)) →
      csum16 s = .ok (order.foldl (fun acc i => acc + (f i).setWidth 16) 0#16)

/-- R89: the code of each decode error, what it means and what it records, for every `DECODE` that answers. -/
def Obligations.DecodeErrorsRecordWhatWasSeen : Prop :=
  ([DecodeResult.truncated, .csumMismatch, .invalidCount, .overrun].map DecodeResult.code = [2, 3, 4, 5]) ∧
  ∀ s t : State, exec .decode s = .next t →
    (t.result = .overrun → s.ovf = true ∧ t.calcSum = 0 ∧ t.expect = 0 ∧ t.rawCount = 0 ∧ t.maxf = 0) ∧
    (t.result = .truncated → s.len.toNat < s.cfg.h + 2 ∧
      t.calcSum = 0 ∧ t.expect = 0 ∧ t.rawCount = 0 ∧ t.maxf = 0) ∧
    (t.result = .csumMismatch → t.calcSum ≠ t.expect ∧ csum16 s = .ok t.calcSum ∧
      carriedChecksum s = .ok t.expect ∧ t.rawCount = 0 ∧ t.maxf = 0) ∧
    (t.result = .invalidCount → t.calcSum = t.expect ∧ csum16 s = .ok t.calcSum ∧
      ∃ raw, headerCount s = .ok raw ∧ raw > min s.cfg.m ((s.len.toNat - s.cfg.h - 2) / s.cfg.r) ∧
        t.rawCount = BitVec.ofNat 16 raw ∧
        t.maxf = BitVec.ofNat 16 (min s.cfg.m ((s.len.toNat - s.cfg.h - 2) / s.cfg.r))) ∧
    t.result ≠ .none

/-- R90: the first stage that fails decides: `OVERRUN`, then `TRUNCATED`, then `CSUM_MISMATCH`, then
`INVALID_COUNT`. -/
def Obligations.FirstFailingStageDecides : Prop :=
  ∀ (s : State) (f : Nat → Byte), s.cfg.wf = true → HoldsFrame s f →
    ∃ t, exec .decode s = .next t ∧
      let truncated := s.len.toNat < s.cfg.h + 2
      let mismatch :=
        frameSum f (s.len.toNat - 2) % 65536 ≠ (f (s.len.toNat - 2)).toNat + 256 * (f (s.len.toNat - 1)).toNat
      let tooMany := frameLE f s.cfg.cntOff s.cfg.cntW > min s.cfg.m ((s.len.toNat - s.cfg.h - 2) / s.cfg.r)
      (t.result = .overrun ↔ s.ovf = true) ∧
      (t.result = .truncated ↔ s.ovf = false ∧ truncated) ∧
      (t.result = .csumMismatch ↔ s.ovf = false ∧ ¬ truncated ∧ mismatch) ∧
      (t.result = .invalidCount ↔ s.ovf = false ∧ ¬ truncated ∧ ¬ mismatch ∧ tooMany) ∧
      (t.result = .ok ↔ s.ovf = false ∧ ¬ truncated ∧ ¬ mismatch ∧ ¬ tooMany)

/-- Idempotence (the spec's own inference: R73 is marked derived from R65 and R47): a second `DECODE`, after any words
that are neither `PUSH` nor `CLEAR`, answers too and leaves the same `RESULT`, `COUNT`, `RAWCOUNT`, `CALC`, `EXPECT`
and `MAXF`; both leave `IDX = 0`. -/
def Obligations.DecodeIsIdempotent : Prop :=
  ∀ (s t u : State) (words : List Word),
    exec .decode s = .next t →
    (∀ w ∈ words, decode w ≠ .ok .clear ∧ ∀ b, decode w ≠ .ok (.push b)) →
    stepMany words.length (sending words t) = .next u →
    ∃ v, exec .decode u = .next v ∧ v.verdict = t.verdict ∧ t.idx = 0 ∧ v.idx = 0

/-- Single-bit sensitivity (the spec's own inference: R74 is marked derived from R64, R68 and R69): flipping one bit
of one byte of a frame that decodes `OK` always gives `CSUM_MISMATCH`; a flip before the checksum moves `CALC` by
`2^k` and leaves `EXPECT`, a flip inside it moves `EXPECT` by `2^k` or `2^(k+8)` and leaves `CALC`. -/
def Obligations.SingleBitFlipIsAlwaysDetected : Prop :=
  ∀ (s t : State) (i k : Nat) (b : Byte),
    exec .decode s = .next t → t.result = .ok → i < s.len.toNat → k < 8 → Memory.read s.buf i = some b →
    ∃ t', exec .decode { s with buf := Memory.write s.buf i (b ^^^ (1#8 <<< k)) } = .next t' ∧
      t'.result = .csumMismatch ∧
      (i < s.len.toNat - 2 → t'.expect = t.expect ∧
        (t'.calcSum = t.calcSum + (1#16 <<< k) ∨ t'.calcSum = t.calcSum - (1#16 <<< k))) ∧
      (i = s.len.toNat - 2 → t'.calcSum = t.calcSum ∧
        (t'.expect = t.expect + (1#16 <<< k) ∨ t'.expect = t.expect - (1#16 <<< k))) ∧
      (i = s.len.toNat - 1 → t'.calcSum = t.calcSum ∧
        (t'.expect = t.expect + (1#16 <<< (k + 8)) ∨ t'.expect = t.expect - (1#16 <<< (k + 8))))

/-- A change that keeps the byte sum mod 65536 and the last two bytes keeps the outcome of the checksum stage: the sum
is not injective (derived from R64, R68, R75). -/
def Obligations.EqualSumsPassTogether : Prop :=
  ∀ (s s' : State) (f g : Nat → Byte),
    s.cfg.wf = true → s'.cfg = s.cfg → s'.len = s.len → s'.ovf = s.ovf → HoldsFrame s f → HoldsFrame s' g →
    frameSum f (s.len.toNat - 2) % 65536 = frameSum g (s.len.toNat - 2) % 65536 →
    f (s.len.toNat - 2) = g (s.len.toNat - 2) → f (s.len.toNat - 1) = g (s.len.toNat - 1) →
    ∃ t t', exec .decode s = .next t ∧ exec .decode s' = .next t' ∧ t'.calcSum = t.calcSum ∧ t'.expect = t.expect ∧
      (t'.result = .csumMismatch ↔ t.result = .csumMismatch)

/-- What `DECODE` leaves unchanged when it answers a next state (derived from R65). -/
def Obligations.DecodeKeepsTheRest : Prop :=
  ∀ s t : State, exec .decode s = .next t →
    t.cfg = s.cfg ∧ t.buf = s.buf ∧ t.len = s.len ∧ t.ovf = s.ovf ∧ t.ill = s.ill ∧ t.rej = s.rej ∧
    t.port = s.port ∧ (∀ a, Memory.read t.buf a = Memory.read s.buf a) ∧ t.phase = .done ∧ t.idx = 0

/-! ### Iterator and reads (42_iterate.md) -/

/-- The field read (derived from R81, R77 to R80 and R9; the sign extension of `rid` in R9 is what the spec marks as
general knowledge, log entry 13): with no record current `RDF` is rejected with reason 4; otherwise it answers the
field's value of slot `IDX`, for every configuration, and no state changes; selects above 7 are illegal. -/
def Obligations.RdfReadsTheCurrentSlot : Prop :=
  ∀ (s : State) (fld : Field) (f : Nat → Byte),
    encode (.rdf fld) = 0x06#8 ++ BitVec.ofNat 8 fld.select ∧
    (∀ x : Byte, 8 ≤ x.toNat → decode (0x06#8 ++ x) = .error .fieldSelect) ∧
    (avail s = false →
      exec (.rdf fld) s = .next
        (let u := { s with rej := .noFace }
         { u with resp := some ⟨false, status u⟩ })) ∧
    (s.cfg.wf = true → avail s = true → HoldsFrame s f →
      s.cfg.h + (s.idx.toNat + 1) * s.cfg.r ≤ s.len.toNat →
      exec (.rdf fld) s = .next { s with resp := some ⟨true, frameField s.cfg f s.idx.toNat fld⟩ })

/-- Bounds of the iterator (the spec's own inference: R84 is marked derived from R71, R7 and R81): in a state a run
can reach, an accepted `RDF` reads only bytes in `[H, LEN-2)`: the bounds of the address, that it completes, and that
no byte outside that range has any influence on its answer. -/
def Obligations.IteratorStaysInsideTheFrame : Prop :=
  ∀ (s : State) (fld : Field), s.Inv → avail s = true →
    s.count.toNat ≤ s.maxf.toNat ∧ s.maxf.toNat ≤ (s.len.toNat - s.cfg.h - 2) / s.cfg.r ∧
    s.cfg.h ≤ slotBase s.cfg s.idx.toNat + fieldOffset s.cfg fld ∧
    slotBase s.cfg s.idx.toNat + fieldOffset s.cfg fld + fieldWidth s.cfg fld ≤ s.len.toNat - 2 ∧
    ∃ v, exec (.rdf fld) s = .next { s with resp := some ⟨true, v⟩ } ∧
      ∀ m : Memory, (∀ a, s.cfg.h ≤ a → a < s.len.toNat - 2 → Memory.read m a = Memory.read s.buf a) →
        exec (.rdf fld) { s with buf := m } = .next { s with buf := m, resp := some ⟨true, v⟩ }

/-- R82: with a record current `NEXT` adds one to `IDX`, which never exceeds `COUNT` and never wraps, and responds
`(1, STATUS)`; otherwise it is rejected with reason 5. -/
def Obligations.NextAdvancesOneSlot : Prop :=
  encode .next = 0x0400#16 ∧
  ∀ s : State,
    (avail s = true →
      exec .next s = .next
        (let u := { s with idx := s.idx + 1#16 }
         { u with resp := some ⟨true, status u⟩ }) ∧
      (s.idx + 1#16).toNat = s.idx.toNat + 1 ∧ (s.idx + 1#16).toNat ≤ s.count.toNat) ∧
    (avail s = false →
      exec .next s = .next
        (let u := { s with rej := .iterEnd }
         { u with resp := some ⟨false, status u⟩ }))

/-- R83: `REWIND` sets `IDX` to 0 in every phase and for every `RESULT`, reads no byte, and responds `(1, STATUS)`;
where `RESULT ≠ OK`, in a state a run can reach, `IDX` is 0 already. -/
def Obligations.RewindReturnsToSlotZero : Prop :=
  encode .rewind = 0x0500#16 ∧
  (∀ s : State,
    exec .rewind s = .next
      (let u := { s with idx := 0#16 }
       { u with resp := some ⟨true, status u⟩ })) ∧
  ∀ s : State, s.Inv → s.result ≠ .ok → s.idx = 0

/-- R31, R86: `RDREG g` answers the register of the map, for each of the fifteen indices, and changes no state; the
indices 0x0F to 0xFF are illegal. -/
def Obligations.RdregReadsTheRegisterMap : Prop :=
  (∀ s : State,
    let reads (index : Byte) (v : Word) : Prop :=
      ∃ g, decode (0x07#8 ++ index) = .ok (.rdreg g) ∧ exec (.rdreg g) s = .next { s with resp := some ⟨true, v⟩ }
    reads 0x00 (status s) ∧ reads 0x01 s.len ∧ reads 0x02 s.count ∧ reads 0x03 s.rawCount ∧ reads 0x04 s.idx ∧
    reads 0x05 s.calcSum ∧ reads 0x06 s.expect ∧ reads 0x07 s.maxf ∧ reads 0x08 (s.rej.code.setWidth 16) ∧
    reads 0x09 (BitVec.ofNat 16 s.cfg.ncap) ∧ reads 0x0A (BitVec.ofNat 16 s.cfg.h) ∧
    reads 0x0B (BitVec.ofNat 16 s.cfg.r) ∧ reads 0x0C (BitVec.ofNat 16 s.cfg.m) ∧ reads 0x0D 0xFC16#16 ∧
    reads 0x0E 0x0001#16) ∧
  (∀ (g : Reg) (s : State), exec (.rdreg g) s = .next { s with resp := some ⟨true, regValue s g⟩ }) ∧
  ∀ index : Byte, 0x0F ≤ index.toNat → decode (0x07#8 ++ index) = .error .registerIndex

/-- Iteration order (the spec's own inference: R85 is marked derived from R81, R82 and R65): after a `DECODE` that is
`OK`, the `k`-th of the `COUNT` records is current after `k` `NEXT`s, its eight fields read as slot `k` of the frame,
and after `COUNT` of them no record is current and a further `NEXT` is rejected. The
value of `rid` is sign-extended as R9 says, which the spec marks as general knowledge (log entry 13). -/
def Obligations.IterationYieldsTheSlotsInOrder : Prop :=
  ∀ (s t : State) (f : Nat → Byte) (k : Nat),
    s.cfg.wf = true → HoldsFrame s f → exec .decode s = .next t → t.result = .ok → k ≤ t.count.toNat →
    ∃ u, stepMany k (sending (List.replicate k 0x0400#16) t) = .next u ∧
      u.idx.toNat = k ∧ u.count = t.count ∧ (avail u = true ↔ k < t.count.toNat) ∧
      (k < t.count.toNat → ∀ fld, exec (.rdf fld) u = .next { u with resp := some ⟨true, frameField s.cfg f k fld⟩ }) ∧
      (k = t.count.toNat → ∃ v, exec .next u = .next v ∧ rejected v ∧ v.rej = .iterEnd ∧ v.idx = u.idx)

/-- `sext_16` of 00_scope.md R9 is sign extension of the low bits read as two's complement, at both widths
`recognition_id` can have (R80). -/
def Obligations.SignExtensionIsTwosComplement : Prop :=
  ∀ v : Nat, sext16 v 8 = (BitVec.ofNat 8 v).signExtend 16 ∧ sext16 v 16 = BitVec.ofNat 16 v

/-- What the iterator and read commands leave unchanged when they answer a next state: everything but `REJ` for a
rejected `RDF` or `NEXT`, `IDX` for `NEXT` and `REWIND`, and the response; every byte of the buffer reads as before
(derived from R81 to R83, R86, R32). -/
def Obligations.IteratorCommandsKeepTheRest : Prop :=
  ∀ (i : Instr) (s t : State), exec i s = .next t →
    (∀ f, i = .rdf f → t = { s with rej := t.rej, resp := t.resp } ∧ (acked t → t.rej = s.rej)) ∧
    (i = .next → t = { s with idx := t.idx, rej := t.rej, resp := t.resp } ∧ (acked t → t.rej = s.rej) ∧
      (rejected t → t.idx = s.idx)) ∧
    (i = .rewind → t = { s with idx := t.idx, resp := t.resp }) ∧
    (∀ g, i = .rdreg g → t = { s with resp := t.resp }) ∧
    ((∃ f, i = .rdf f) ∨ i = .next ∨ i = .rewind ∨ (∃ g, i = .rdreg g) →
      ∀ a, Memory.read t.buf a = Memory.read s.buf a)

/-! ### Errors and rejections (60_exceptions.md) -/

/-- R87: a rejected command writes `REJ`, `ILL <- 1` if the word is illegal, and `OVF <- 1` if it is a `PUSH` to a
full buffer; no other state changes. -/
def Obligations.RejectionChangesNothingElse : Prop :=
  ∀ (s t : State) (w : Word) (rest : List HostInput),
    s.port = .command w :: rest → step s = .next t → rejected t →
    t = { s with port := rest, rej := t.rej, resp := some ⟨false, status t⟩,
                 ill := if t.rej = .illegal then true else s.ill,
                 ovf := if t.rej = .overrun then true else s.ovf } ∧
    t.rej ≠ .none

/-- R88 with the order of R91: a command is rejected exactly for the causes of the table, in the order decode, frozen,
overrun, and `REJ` then holds the code; an accepted command leaves `REJ`, and `CLEAR` zeroes it. -/
def Obligations.RejectionReasonsFollowTheTable : Prop :=
  ([Reject.none, .illegal, .frozen, .overrun, .noFace, .iterEnd].map Reject.code = [0, 1, 2, 3, 4, 5]) ∧
  ∀ (s t : State) (w : Word) (rest : List HostInput),
    s.port = .command w :: rest → step s = .next t →
    let reason : Reject :=
      match decode w with
      | .error _ => .illegal
      | .ok (.push _) =>
        if s.phase = .done then .frozen else if s.len.toNat = s.cfg.ncap then .overrun else .none
      | .ok (.rdf _) => if avail s = true then .none else .noFace
      | .ok .next => if avail s = true then .none else .iterEnd
      | .ok _ => .none
    (rejected t ↔ reason ≠ .none) ∧
    (reason ≠ .none → t.rej = reason) ∧
    (reason = .none → t.rej = if decode w = .ok .clear then .none else s.rej)

/-- R19: `OVF` is set by a `PUSH` in `LOAD` with a full buffer and by nothing else, is cleared by `CLEAR` and reset
only, and makes `DECODE` report `OVERRUN`; it is 0 at reset. -/
def Obligations.OverrunFlagIsSticky : Prop :=
  (∀ s t : State, step s = .next t →
    t.ovf =
      match s.port with
      | [] => s.ovf
      | .reset :: _ => false
      | .command w :: _ =>
        if decode w = .ok .clear then false
        else s.ovf || decide ((∃ b, decode w = .ok (.push b)) ∧ s.phase = .load ∧ s.len.toNat = s.cfg.ncap)) ∧
  (∀ s : State, s.ovf = true → ∃ t, exec .decode s = .next t ∧ t.result = .overrun) ∧
  ∀ c, (State.resetFor c).ovf = false

/-- R20: `ILL` is set by an illegal word and by nothing else, is cleared by `CLEAR` and reset only, and no command does
anything differently because of it: run with `ILL` at either value, a command leaves the same state but for `ILL` and
answers with the same `ack` and with data that differ at most in the `ILL` bit of `STATUS`, and not at all for an
accepted `RDF` or a register other than `STATUS`. It is 0 at reset. -/
def Obligations.IllegalFlagIsSticky : Prop :=
  (∀ s t : State, step s = .next t →
    t.ill =
      match s.port with
      | [] => s.ill
      | .reset :: _ => false
      | .command w :: _ => if decode w = .ok .clear then false else s.ill || !spellsCommand w) ∧
  (∀ (i : Instr) (s t : State) (b : Bool), exec i s = .next t →
    ∃ u ack v v', exec i { s with ill := b } = .next u ∧ { u with ill := t.ill, resp := t.resp } = t ∧
      t.resp = some ⟨ack, v⟩ ∧ u.resp = some ⟨ack, v'⟩ ∧
      (∀ k, k ≠ 5 → v'.getLsbD k = v.getLsbD k) ∧
      (∀ f, i = .rdf f → ack = true → v' = v) ∧ (∀ g, i = .rdreg g → g ≠ .status → v' = v)) ∧
  ∀ c, (State.resetFor c).ill = false

/-- All-or-nothing (the spec's own inference: R92 is marked derived from R65 and R81): in a state a run can reach,
when `RESULT ≠ OK` there is no record: `COUNT = 0`, `AVAIL = 0`, and every `RDF` is rejected and answers no field. -/
def Obligations.FailedDecodeExposesNoRecord : Prop :=
  ∀ s : State, s.Inv → s.result ≠ .ok →
    s.count = 0 ∧ avail s = false ∧
    ∀ f, exec (.rdf f) s = .next
      (let u := { s with rej := .noFace }
       { u with resp := some ⟨false, status u⟩ })

/-! ### The frozen buffer, the invariant and progress -/

/-- The frozen buffer (the spec's own inference: R47 is marked derived from R62 and R18): while `PHASE = DONE` no
command writes `BUF` or `LEN`, until the next `CLEAR` or reset. -/
def Obligations.FrozenFrameStaysUntilClear : Prop :=
  ∀ s t : State, s.phase = .done → step s = .next t →
    (∀ rest, s.port ≠ .reset :: rest) → (∀ w rest, s.port = .command w :: rest → decode w ≠ .ok .clear) →
    t.buf = s.buf ∧ t.len = s.len ∧ t.phase = .done

/-- What the decode registers hold in a state a run can reach: after an `OK`, the checksums agree and
`COUNT = RAWCOUNT ≤ MAXF = min(M, (LEN - H - 2) div R)`; otherwise `COUNT = 0`; and always `IDX ≤ COUNT` (derived from
R22 to R27 and R72). -/
def Obligations.DecodeRegistersAgree : Prop :=
  ∀ s : State, s.Inv →
    (s.result = .ok → s.phase = .done ∧ s.ovf = false ∧ s.cfg.h + 2 ≤ s.len.toNat ∧ s.calcSum = s.expect ∧
      s.count = s.rawCount ∧ s.count.toNat ≤ s.maxf.toNat ∧
      s.maxf.toNat = min s.cfg.m ((s.len.toNat - s.cfg.h - 2) / s.cfg.r)) ∧
    (s.result ≠ .ok → s.count = 0) ∧ (s.result = .none ↔ s.phase = .load) ∧ s.idx.toNat ≤ s.count.toNat

/-- The reset state of every well-formed configuration meets the invariant, and so does the model's `State.reset`. -/
def Obligations.ResetStateMeetsInv : Prop :=
  (∀ c : Config, c.wf = true → (State.resetFor c).Inv) ∧ State.reset.Inv

/-- From every state that meets the invariant, whatever the host sends, a step leads to a state that meets it: the
buffer stays canonical with exactly the cells below `LEN` written, `LEN ≤ NCAP`, `IDX ≤ COUNT`, and the decode
registers stay what `DECODE` computes of the frozen frame (derived from R16 to R27, R47, R62). -/
def Obligations.StepKeepsInv : Prop :=
  ∀ s t : State, s.Inv → step s = .next t → t.Inv

/-- The block has no traps and never stops: from every state that meets the invariant, whatever the host sends, the
step answers a next state (derived from R11, R84, R94). -/
def Obligations.NoStepFromInvStops : Prop :=
  ∀ s : State, s.Inv → ∃ t, step s = .next t

/-- Blocks side by side share nothing: a step of one is its own step, leaves every other as it was, and depends on no
other (60_exceptions.md R98). -/
def Obligations.BlocksAreIndependent : Prop :=
  ∀ (n : Nat) (k : Fin n) (blocks : Vector State n),
    (∀ s, step blocks[k] = .next s → stepBlock k blocks = .next (blocks.set k s)) ∧
    (∀ after, stepBlock k blocks = .next after →
      step blocks[k] = .next after[k] ∧ ∀ j : Fin n, j ≠ k → after[j] = blocks[j]) ∧
    ∀ other : Vector State n, other[k] = blocks[k] → ∀ s, stepBlock k blocks = .next s →
      ∃ s', stepBlock k other = .next s' ∧ s'[k] = s[k]

/-! ### The assembler (30_encoding.md R58, R59) -/

/-- R59: each pseudo-instruction's expansion. `PUSHCS` is refused where there is no frame start before it, and otherwise
pushes the sum of the `PUSH` operands since the most recent `CLEAR` or `LOADF`, whatever text stands before that, and
whatever other commands stand among the `PUSH`es. -/
def Obligations.PseudoInstructionsExpandAsTabled : Prop :=
  let pushes (bs : List Byte) : List Word := bs.map fun b => 0x02#8 ++ b
  let checksum (sum : Nat) : List Word :=
    pushes [BitVec.ofNat 8 (sum % 65536 % 256), BitVec.ofNat 8 (sum % 65536 / 256)]
  (∀ bs, Asm.assembleLines [.command (.pushN bs)] = .ok (pushes bs)) ∧
  (∀ v : Word, Asm.assembleLines [.command (.pushW v)] = .ok (pushes [v.extractLsb' 0 8, v.extractLsb' 8 8])) ∧
  (∀ n, Asm.assembleLines [.command (.pushZ n)] = .ok (List.replicate n 0x0200#16)) ∧
  (∀ bs, Asm.assembleLines [.command (.loadF bs)] = .ok (0x0100#16 :: pushes bs)) ∧
  (Asm.assembleLines [.command .rdFace] =
    .ok [0x0600#16, 0x0601#16, 0x0602#16, 0x0603#16, 0x0604#16, 0x0605#16, 0x0606#16, 0x0607#16]) ∧
  (Asm.assembleLines [.command .pushCs] = .error .noFrameStart) ∧
  (∀ bs, Asm.assembleLines [.command (.pushN bs), .command .pushCs] = .error .noFrameStart) ∧
  ∀ (before : List Asm.Line) (words : List Word), Asm.assembleLines before = .ok words →
    (∀ bs : List Byte,
      let done := words ++ 0x0100#16 :: (pushes bs ++ checksum (bs.map BitVec.toNat).sum)
      Asm.assembleLines (before ++ [.command (.loadF bs), .command .pushCs]) = .ok done ∧
      Asm.assembleLines (before ++ [.command (.instr .clear), .command (.pushN bs), .command .pushCs]) = .ok done) ∧
    ∀ body : List Instr, .clear ∉ body →
      Asm.assembleLines
          (before ++ .command (.instr .clear) :: (body.map (fun i => .command (.instr i)) ++ [.command .pushCs])) =
        .ok (words ++ 0x0100#16 :: (body.map encode ++ checksum (body.map pushedValue).sum))

/-- The assembler takes an operand number in its range as it is, and refuses one out of range (derived from R58, and from
R59 for `PUSHW` and for the lists of `PUSHN` and `LOADF`): nothing is wrapped or truncated, and nothing in range is
refused. Where R58 and R59 leave the text open the statement shows the model's own choices of log entry 12 (DESIGN
CHOICE): that `PUSHZ`, for which they give no range, takes any number, that blanks around the operands of a list are
dropped, and which texts read as a number (`Asm.number`: digits of either case, the prefix in lower case). -/
def Obligations.AssemblerNeverWrapsAnOperand : Prop :=
  (∀ (cs : List Char) (n : Nat), Asm.number cs = some n →
    let line (mnemonic : String) := Asm.parseCommand mnemonic.toList cs
    (n < 256 → ∃ b : Byte, line "PUSH" = .ok (.command (.instr (.push b))) ∧ b.toNat = n) ∧
    (256 ≤ n → line "PUSH" = .error .outOfRange) ∧
    (n < 8 → ∃ f : Field, line "RDF" = .ok (.command (.instr (.rdf f))) ∧ f.select = n) ∧
    (8 ≤ n → line "RDF" = .error .outOfRange) ∧
    (n < 0x0F → ∃ g : Reg, line "RDREG" = .ok (.command (.instr (.rdreg g))) ∧ g.index = n) ∧
    (0x0F ≤ n → line "RDREG" = .error .outOfRange) ∧
    (n < 65536 → ∃ v : Word, line "PUSHW" = .ok (.command (.pushW v)) ∧ v.toNat = n) ∧
    (65536 ≤ n → line "PUSHW" = .error .outOfRange) ∧
    line "PUSHZ" = .ok (.command (.pushZ n))) ∧
  ∀ (parts : List (List Char)) (bs : List Byte),
    Asm.byteList parts = .ok bs ↔
      parts.map (fun p => Asm.number (Asm.trim p)) = bs.map (fun b => some b.toNat)

/-- `PUSHCS` computes the sum `DECODE` checks: whatever the block did before, any frame of at least a header's bytes
that fits, loaded with `LOADF` and closed with `PUSHCS`, passes the checksum stage (R59 with R64 and R68). -/
def Obligations.AssembledChecksumPasses : Prop :=
  ∀ (s : State) (bs : List Byte),
    s.cfg.wf = true → s.cfg.h ≤ bs.length → bs.length + 2 ≤ s.cfg.ncap →
    ∃ words t,
      Asm.assembleLines [.command (.loadF bs), .command .pushCs, .command (.instr .decode)] = .ok words ∧
      stepMany words.length (sending words s) = .next t ∧
      t.len.toNat = bs.length + 2 ∧ t.calcSum = t.expect ∧
      t.calcSum = BitVec.ofNat 16 ((bs.map BitVec.toNat).sum % 65536) ∧
      (t.result = .ok ∨ t.result = .invalidCount)
end

