-- ==== Sys2Proof/Laws/Asm.lean ====
section
/-! SUPPORT. The assembler: what assembling a concatenation of two texts gives (30_encoding.md R58, R59). -/

namespace Sys2Proof.Asm

/-- Text that assembles leaves a sum that the text after it starts from, and its words stand before the later ones. -/
theorem assembleFrom_append (first : List Line) : ∀ (sum : Option Nat) (words : List Word),
    assembleFrom sum first = .ok words →
    ∃ sum', ∀ later, assembleFrom sum (first ++ later) = (assembleFrom sum' later).map (words ++ ·) := by
  induction first with
  | nil =>
    rintro sum _ ⟨⟩
    exact ⟨sum, fun later => by cases h : assembleFrom sum later <;> simp [Except.map, h]⟩
  | cons line rest ih =>
    intro sum words h
    cases line with
    | word x =>
      cases hr : assembleFrom sum rest with
      | error e => simp [assembleFrom, hr, bind, Except.bind] at h
      | ok tail =>
        simp only [assembleFrom, hr, bind, Except.bind, Except.ok.injEq] at h
        obtain ⟨sum', hs⟩ := ih _ _ hr
        refine ⟨sum', fun later => ?_⟩
        subst h
        simp only [List.cons_append, assembleFrom, hs]
        cases assembleFrom sum' later <;> rfl
    | command c =>
      cases he : expand sum c with
      | error e => simp [assembleFrom, he, bind, Except.bind] at h
      | ok emitted =>
        cases hr : assembleFrom (emitted.foldl trackSum sum) rest with
        | error e => simp [assembleFrom, he, hr, bind, Except.bind] at h
        | ok tail =>
          simp only [assembleFrom, he, hr, bind, Except.bind, Except.ok.injEq] at h
          obtain ⟨sum', hs⟩ := ih _ _ hr
          refine ⟨sum', fun later => ?_⟩
          subst h
          simp only [List.cons_append, assembleFrom, he, hs, bind, Except.bind]
          cases assembleFrom sum' later <;> simp [Except.map]

end Sys2Proof.Asm
end

