-- ==== Sys2Proof/Laws/Memory.lean ====
section
/-! SUPPORT. The frame buffer: reading after a write, the canonical form, and the shape of a buffer that holds the
cells `0 .. n-1`. -/

namespace Sys2Proof.Machine

theorem Memory.read_write_same (m : Memory) (a : Nat) (v : Byte) : Memory.read (Memory.write m a v) a = some v := by
  induction m with
  | nil => simp [Memory.write, Memory.read]
  | cons c rest ih =>
    obtain ⟨k, b⟩ := c
    unfold Memory.write
    split
    · simp [Memory.read]
    · split
      · simp [Memory.read]
      · have : k ≠ a := fun h => by omega
        simp [Memory.read, this, ih]

theorem Memory.read_write_other (m : Memory) {a b : Nat} (v : Byte) (h : b ≠ a) :
    Memory.read (Memory.write m a v) b = Memory.read m b := by
  induction m with
  | nil => simp [Memory.write, Memory.read, Ne.symm h]
  | cons c rest ih =>
    obtain ⟨k, x⟩ := c
    unfold Memory.write
    split
    · simp [Memory.read, Ne.symm h]
    · split
      · rename_i hk
        subst hk
        simp [Memory.read, Ne.symm h]
      · simp [Memory.read, ih]

/-- The canonical form as the library's sortedness of the addresses. -/
theorem Memory.wf_iff (m : Memory) : Memory.wf m = true ↔ (m.map Prod.fst).Pairwise (· < ·) := by
  induction m with
  | nil => simp [Memory.wf]
  | cons c rest ih =>
    cases rest with
    | nil => simp [Memory.wf]
    | cons d tail =>
      simp only [Memory.wf, Bool.and_eq_true, decide_eq_true_eq, ih, List.map_cons, List.pairwise_cons,
        List.mem_cons, forall_eq_or_imp]
      constructor
      · rintro ⟨h, h', h''⟩
        exact ⟨⟨h, fun a ha => lt_trans h (h' a ha)⟩, h', h''⟩
      · rintro ⟨⟨h, -⟩, h', h''⟩
        exact ⟨h, h', h''⟩

theorem Memory.mem_write_fst {m : Memory} {a k : Nat} {v : Byte} :
    k ∈ (Memory.write m a v).map Prod.fst ↔ k = a ∨ k ∈ m.map Prod.fst := by
  induction m with
  | nil => simp [Memory.write]
  | cons c rest ih =>
    obtain ⟨j, b⟩ := c
    unfold Memory.write
    split
    · simp
    · split
      · rename_i h
        subst h
        simp
      · simp only [List.map_cons, List.mem_cons, ih]
        tauto

/-- A write keeps the canonical form. -/
theorem Memory.write_wf {m : Memory} (a : Nat) (v : Byte) (h : Memory.wf m = true) :
    Memory.wf (Memory.write m a v) = true := by
  rw [Memory.wf_iff] at h ⊢
  induction m with
  | nil => simp [Memory.write]
  | cons c rest ih =>
    obtain ⟨k, b⟩ := c
    simp only [List.map_cons, List.pairwise_cons] at h
    unfold Memory.write
    split
    · rename_i hak
      simp only [List.map_cons, List.pairwise_cons, List.mem_cons, forall_eq_or_imp]
      exact ⟨⟨hak, fun x hx => lt_trans hak (h.1 x hx)⟩, h⟩
    · split
      · rename_i hak
        subst hak
        simpa using h
      · simp only [List.map_cons, List.pairwise_cons]
        refine ⟨fun x hx => ?_, ih h.2⟩
        rcases Memory.mem_write_fst.mp hx with rfl | hx
        · omega
        · exact h.1 x hx

/-- An address holds a byte exactly when it is listed. -/
theorem Memory.read_isSome_iff (m : Memory) (a : Nat) : (Memory.read m a).isSome = true ↔ a ∈ m.map Prod.fst := by
  induction m with
  | nil => simp [Memory.read]
  | cons c rest ih =>
    obtain ⟨k, b⟩ := c
    unfold Memory.read
    split
    · simp_all
    · rename_i h
      simp only [List.map_cons, List.mem_cons, ih]
      constructor
      · exact Or.inr
      · rintro (rfl | h')
        · exact absurd rfl h
        · exact h'

/-- A buffer whose written cells are `0 .. n-1` has a byte exactly below `n`. -/
theorem Memory.read_of_filled {m : Memory} {n : Nat} (h : m.map Prod.fst = List.range n) (a : Nat) :
    (∃ b, Memory.read m a = some b) ↔ a < n := by
  rw [← Option.isSome_iff_exists, Memory.read_isSome_iff, h, List.mem_range]

/-- A write above every listed address appends. -/
theorem Memory.write_append {m : Memory} {a : Nat} (v : Byte) (h : ∀ k ∈ m.map Prod.fst, k < a) :
    Memory.write m a v = m ++ [(a, v)] := by
  induction m with
  | nil => rfl
  | cons c rest ih =>
    obtain ⟨k, b⟩ := c
    have hk : k < a := h k (by simp)
    unfold Memory.write
    rw [if_neg (by omega), if_neg (by omega), ih fun x hx => h x (by simp at hx ⊢; exact Or.inr hx)]
    rfl

/-- Writing cell `n` of a buffer whose written cells are `0 .. n-1` leaves `0 .. n` written. -/
theorem Memory.filled_write {m : Memory} {n : Nat} (v : Byte) (h : m.map Prod.fst = List.range n) :
    (Memory.write m n v).map Prod.fst = List.range (n + 1) := by
  rw [Memory.write_append v fun k hk => by rw [h] at hk; exact List.mem_range.mp hk, List.map_append, h,
    List.range_succ]
  rfl

/-- The reset buffer is in the canonical form. -/
theorem State.resetFor_bufWf (c : Config) : Memory.wf (State.resetFor c).buf = true := rfl

/-- `bufWrite` writes one cell below `NCAP`, keeps the canonical form and changes nothing but the buffer. -/
theorem bufWrite_spec {s t : State} {a : Nat} {v : Byte} (h : bufWrite s a v = .ok t) :
    a < s.cfg.ncap ∧ t = { s with buf := Memory.write s.buf a v } ∧
      (Memory.wf s.buf = true → Memory.wf t.buf = true) := by
  unfold bufWrite at h
  split at h
  · rename_i ha
    cases h
    exact ⟨ha, rfl, Memory.write_wf a v⟩
  · cases h

end Sys2Proof.Machine
end

