-- ==== Sys2Proof/Laws/State.lean ====
section
/-! SUPPORT. What each named update of the state does to each field: one lemma per field per update. -/

namespace Sys2Proof.Machine

/-! ### `respond` -/

@[simp] theorem respond_cfg (ack : Bool) (data : Word) (s : State) : (respond ack data s).cfg = s.cfg := rfl
@[simp] theorem respond_buf (ack : Bool) (data : Word) (s : State) : (respond ack data s).buf = s.buf := rfl
@[simp] theorem respond_len (ack : Bool) (data : Word) (s : State) : (respond ack data s).len = s.len := rfl
@[simp] theorem respond_phase (ack : Bool) (data : Word) (s : State) : (respond ack data s).phase = s.phase := rfl
@[simp] theorem respond_ovf (ack : Bool) (data : Word) (s : State) : (respond ack data s).ovf = s.ovf := rfl
@[simp] theorem respond_ill (ack : Bool) (data : Word) (s : State) : (respond ack data s).ill = s.ill := rfl
@[simp] theorem respond_result (ack : Bool) (data : Word) (s : State) : (respond ack data s).result = s.result := rfl
@[simp] theorem respond_count (ack : Bool) (data : Word) (s : State) : (respond ack data s).count = s.count := rfl
@[simp] theorem respond_rawCount (ack : Bool) (data : Word) (s : State) : (respond ack data s).rawCount = s.rawCount := rfl
@[simp] theorem respond_idx (ack : Bool) (data : Word) (s : State) : (respond ack data s).idx = s.idx := rfl
@[simp] theorem respond_calcSum (ack : Bool) (data : Word) (s : State) : (respond ack data s).calcSum = s.calcSum := rfl
@[simp] theorem respond_expect (ack : Bool) (data : Word) (s : State) : (respond ack data s).expect = s.expect := rfl
@[simp] theorem respond_maxf (ack : Bool) (data : Word) (s : State) : (respond ack data s).maxf = s.maxf := rfl
@[simp] theorem respond_rej (ack : Bool) (data : Word) (s : State) : (respond ack data s).rej = s.rej := rfl
@[simp] theorem respond_port (ack : Bool) (data : Word) (s : State) : (respond ack data s).port = s.port := rfl
@[simp] theorem respond_resp (ack : Bool) (data : Word) (s : State) : (respond ack data s).resp = some ⟨ack, data⟩ := rfl

/-! ### `accept` -/

@[simp] theorem accept_cfg (s : State) : (accept s).cfg = s.cfg := rfl
@[simp] theorem accept_buf (s : State) : (accept s).buf = s.buf := rfl
@[simp] theorem accept_len (s : State) : (accept s).len = s.len := rfl
@[simp] theorem accept_phase (s : State) : (accept s).phase = s.phase := rfl
@[simp] theorem accept_ovf (s : State) : (accept s).ovf = s.ovf := rfl
@[simp] theorem accept_ill (s : State) : (accept s).ill = s.ill := rfl
@[simp] theorem accept_result (s : State) : (accept s).result = s.result := rfl
@[simp] theorem accept_count (s : State) : (accept s).count = s.count := rfl
@[simp] theorem accept_rawCount (s : State) : (accept s).rawCount = s.rawCount := rfl
@[simp] theorem accept_idx (s : State) : (accept s).idx = s.idx := rfl
@[simp] theorem accept_calcSum (s : State) : (accept s).calcSum = s.calcSum := rfl
@[simp] theorem accept_expect (s : State) : (accept s).expect = s.expect := rfl
@[simp] theorem accept_maxf (s : State) : (accept s).maxf = s.maxf := rfl
@[simp] theorem accept_rej (s : State) : (accept s).rej = s.rej := rfl
@[simp] theorem accept_port (s : State) : (accept s).port = s.port := rfl
@[simp] theorem accept_resp (s : State) : (accept s).resp = some ⟨true, status s⟩ := rfl

/-! ### `reject` -/

@[simp] theorem reject_cfg (r : Reject) (s : State) : (reject r s).cfg = s.cfg := rfl
@[simp] theorem reject_buf (r : Reject) (s : State) : (reject r s).buf = s.buf := rfl
@[simp] theorem reject_len (r : Reject) (s : State) : (reject r s).len = s.len := rfl
@[simp] theorem reject_phase (r : Reject) (s : State) : (reject r s).phase = s.phase := rfl
@[simp] theorem reject_ovf (r : Reject) (s : State) : (reject r s).ovf = s.ovf := rfl
@[simp] theorem reject_ill (r : Reject) (s : State) : (reject r s).ill = (s.ill || decide (r = .illegal)) := rfl
@[simp] theorem reject_result (r : Reject) (s : State) : (reject r s).result = s.result := rfl
@[simp] theorem reject_count (r : Reject) (s : State) : (reject r s).count = s.count := rfl
@[simp] theorem reject_rawCount (r : Reject) (s : State) : (reject r s).rawCount = s.rawCount := rfl
@[simp] theorem reject_idx (r : Reject) (s : State) : (reject r s).idx = s.idx := rfl
@[simp] theorem reject_calcSum (r : Reject) (s : State) : (reject r s).calcSum = s.calcSum := rfl
@[simp] theorem reject_expect (r : Reject) (s : State) : (reject r s).expect = s.expect := rfl
@[simp] theorem reject_maxf (r : Reject) (s : State) : (reject r s).maxf = s.maxf := rfl
@[simp] theorem reject_rej (r : Reject) (s : State) : (reject r s).rej = r := rfl
@[simp] theorem reject_port (r : Reject) (s : State) : (reject r s).port = s.port := rfl

/-! ### `setVerdict` -/

@[simp] theorem setVerdict_cfg (v : Verdict) (s : State) : (s.setVerdict v).cfg = s.cfg := rfl
@[simp] theorem setVerdict_buf (v : Verdict) (s : State) : (s.setVerdict v).buf = s.buf := rfl
@[simp] theorem setVerdict_len (v : Verdict) (s : State) : (s.setVerdict v).len = s.len := rfl
@[simp] theorem setVerdict_phase (v : Verdict) (s : State) : (s.setVerdict v).phase = s.phase := rfl
@[simp] theorem setVerdict_ovf (v : Verdict) (s : State) : (s.setVerdict v).ovf = s.ovf := rfl
@[simp] theorem setVerdict_ill (v : Verdict) (s : State) : (s.setVerdict v).ill = s.ill := rfl
@[simp] theorem setVerdict_result (v : Verdict) (s : State) : (s.setVerdict v).result = v.result := rfl
@[simp] theorem setVerdict_count (v : Verdict) (s : State) : (s.setVerdict v).count = v.count := rfl
@[simp] theorem setVerdict_rawCount (v : Verdict) (s : State) : (s.setVerdict v).rawCount = v.rawCount := rfl
@[simp] theorem setVerdict_idx (v : Verdict) (s : State) : (s.setVerdict v).idx = s.idx := rfl
@[simp] theorem setVerdict_calcSum (v : Verdict) (s : State) : (s.setVerdict v).calcSum = v.calcSum := rfl
@[simp] theorem setVerdict_expect (v : Verdict) (s : State) : (s.setVerdict v).expect = v.expect := rfl
@[simp] theorem setVerdict_maxf (v : Verdict) (s : State) : (s.setVerdict v).maxf = v.maxf := rfl
@[simp] theorem setVerdict_rej (v : Verdict) (s : State) : (s.setVerdict v).rej = s.rej := rfl
@[simp] theorem setVerdict_port (v : Verdict) (s : State) : (s.setVerdict v).port = s.port := rfl
@[simp] theorem setVerdict_resp (v : Verdict) (s : State) : (s.setVerdict v).resp = s.resp := rfl

/-! ### `clearState` -/

@[simp] theorem clearState_cfg (s : State) : (clearState s).cfg = s.cfg := rfl
@[simp] theorem clearState_buf (s : State) : (clearState s).buf = [] := rfl
@[simp] theorem clearState_len (s : State) : (clearState s).len = 0#16 := rfl
@[simp] theorem clearState_phase (s : State) : (clearState s).phase = .load := rfl
@[simp] theorem clearState_ovf (s : State) : (clearState s).ovf = false := rfl
@[simp] theorem clearState_ill (s : State) : (clearState s).ill = false := rfl
@[simp] theorem clearState_result (s : State) : (clearState s).result = .none := rfl
@[simp] theorem clearState_count (s : State) : (clearState s).count = 0#16 := rfl
@[simp] theorem clearState_rawCount (s : State) : (clearState s).rawCount = 0#16 := rfl
@[simp] theorem clearState_idx (s : State) : (clearState s).idx = 0#16 := rfl
@[simp] theorem clearState_calcSum (s : State) : (clearState s).calcSum = 0#16 := rfl
@[simp] theorem clearState_expect (s : State) : (clearState s).expect = 0#16 := rfl
@[simp] theorem clearState_maxf (s : State) : (clearState s).maxf = 0#16 := rfl
@[simp] theorem clearState_rej (s : State) : (clearState s).rej = .none := rfl
@[simp] theorem clearState_port (s : State) : (clearState s).port = s.port := rfl
@[simp] theorem clearState_resp (s : State) : (clearState s).resp = none := rfl

/-! ### `idle` -/

@[simp] theorem idle_cfg (s : State) : (idle s).cfg = s.cfg := rfl
@[simp] theorem idle_buf (s : State) : (idle s).buf = s.buf := rfl
@[simp] theorem idle_len (s : State) : (idle s).len = s.len := rfl
@[simp] theorem idle_phase (s : State) : (idle s).phase = s.phase := rfl
@[simp] theorem idle_ovf (s : State) : (idle s).ovf = s.ovf := rfl
@[simp] theorem idle_ill (s : State) : (idle s).ill = s.ill := rfl
@[simp] theorem idle_result (s : State) : (idle s).result = s.result := rfl
@[simp] theorem idle_count (s : State) : (idle s).count = s.count := rfl
@[simp] theorem idle_rawCount (s : State) : (idle s).rawCount = s.rawCount := rfl
@[simp] theorem idle_idx (s : State) : (idle s).idx = s.idx := rfl
@[simp] theorem idle_calcSum (s : State) : (idle s).calcSum = s.calcSum := rfl
@[simp] theorem idle_expect (s : State) : (idle s).expect = s.expect := rfl
@[simp] theorem idle_maxf (s : State) : (idle s).maxf = s.maxf := rfl
@[simp] theorem idle_rej (s : State) : (idle s).rej = s.rej := rfl
@[simp] theorem idle_port (s : State) : (idle s).port = s.port := rfl
@[simp] theorem idle_resp (s : State) : (idle s).resp = none := rfl

/-! ### `presentWord` -/

@[simp] theorem presentWord_cfg (w : Word) (s : State) : (presentWord w s).cfg = s.cfg := rfl
@[simp] theorem presentWord_buf (w : Word) (s : State) : (presentWord w s).buf = s.buf := rfl
@[simp] theorem presentWord_len (w : Word) (s : State) : (presentWord w s).len = s.len := rfl
@[simp] theorem presentWord_phase (w : Word) (s : State) : (presentWord w s).phase = s.phase := rfl
@[simp] theorem presentWord_ovf (w : Word) (s : State) : (presentWord w s).ovf = s.ovf := rfl
@[simp] theorem presentWord_ill (w : Word) (s : State) : (presentWord w s).ill = s.ill := rfl
@[simp] theorem presentWord_result (w : Word) (s : State) : (presentWord w s).result = s.result := rfl
@[simp] theorem presentWord_count (w : Word) (s : State) : (presentWord w s).count = s.count := rfl
@[simp] theorem presentWord_rawCount (w : Word) (s : State) : (presentWord w s).rawCount = s.rawCount := rfl
@[simp] theorem presentWord_idx (w : Word) (s : State) : (presentWord w s).idx = s.idx := rfl
@[simp] theorem presentWord_calcSum (w : Word) (s : State) : (presentWord w s).calcSum = s.calcSum := rfl
@[simp] theorem presentWord_expect (w : Word) (s : State) : (presentWord w s).expect = s.expect := rfl
@[simp] theorem presentWord_maxf (w : Word) (s : State) : (presentWord w s).maxf = s.maxf := rfl
@[simp] theorem presentWord_rej (w : Word) (s : State) : (presentWord w s).rej = s.rej := rfl
@[simp] theorem presentWord_port (w : Word) (s : State) : (presentWord w s).port = .command w :: s.port := rfl
@[simp] theorem presentWord_resp (w : Word) (s : State) : (presentWord w s).resp = s.resp := rfl

@[simp] theorem clearState_idempotent (s : State) : clearState (clearState s) = clearState s := rfl

@[simp] theorem takeReset_eq (s : State) : takeReset s = clearState s := rfl

@[simp] theorem rejectIllegal_eq (s : State) : rejectIllegal s = reject .illegal s := rfl

/-! ### Words computed from the state do not see the response, the port or the buffer -/

theorem avail_congr {s t : State} (hr : s.result = t.result) (hi : s.idx = t.idx) (hc : s.count = t.count) :
    avail s = avail t := by
  simp [avail, hr, hi, hc]

theorem status_congr {s t : State} (hr : s.result = t.result) (hi : s.idx = t.idx) (hc : s.count = t.count)
    (hp : s.phase = t.phase) (ho : s.ovf = t.ovf) (hl : s.ill = t.ill) : status s = status t := by
  simp [status, avail_congr hr hi hc, hr, hp, ho, hl]

@[simp] theorem avail_respond (ack : Bool) (data : Word) (s : State) : avail (respond ack data s) = avail s := rfl

@[simp] theorem avail_reject (r : Reject) (s : State) : avail (reject r s) = avail s := rfl

@[simp] theorem avail_accept (s : State) : avail (accept s) = avail s := rfl

@[simp] theorem status_respond (ack : Bool) (data : Word) (s : State) : status (respond ack data s) = status s := rfl

@[simp] theorem status_accept (s : State) : status (accept s) = status s := rfl

theorem reject_resp (r : Reject) (s : State) : (reject r s).resp = some ⟨false, status (reject r s)⟩ := rfl

theorem avail_iff (s : State) : avail s = true ↔ s.result = .ok ∧ s.idx.toNat < s.count.toNat := by
  simp [avail]

@[simp] theorem verdict_setVerdict (s : State) (v : Verdict) : (s.setVerdict v).verdict = v := rfl

@[simp] theorem setVerdict_verdict (s : State) : s.setVerdict s.verdict = s := rfl

@[simp] theorem ofExcept_ok (s : State) : ofExcept (.ok s) = .next s := rfl

@[simp] theorem ofExcept_error (f : Fault) : ofExcept (.error f) = .fault f := rfl

end Sys2Proof.Machine
end

