-- ==== Sys2Proof/Laws/Ops.lean ====
section
/-! SUPPORT. What each shared operation can do, said once: reading bytes, numbers and sums of a frame, the stages of
`DECODE`, each command whose meaning has cases, and the step. -/

namespace Sys2Proof.Machine

/-! ### Reading -/

/-- A byte read answers exactly the written byte of a cell below `LEN`. -/
theorem readByte_ok_iff {s : State} {a : Nat} {b : Byte} :
    readByte s a = .ok b ↔ a < s.len.toNat ∧ Memory.read s.buf a = some b := by
  unfold readByte
  split
  · cases h : Memory.read s.buf a <;> simp_all
  · simp_all

/-- A byte read sees the buffer and `LEN` only. -/
theorem readByte_congr {s t : State} (hb : s.buf = t.buf) (hl : s.len = t.len) (a : Nat) :
    readByte s a = readByte t a := by
  simp [readByte, hb, hl]

theorem readLE_congr {s t : State} (hb : s.buf = t.buf) (hl : s.len = t.len) (a w : Nat) :
    readLE s a w = readLE t a w := by
  induction w generalizing a with
  | zero => rfl
  | succ w ih => simp [readLE, readByte_congr hb hl, ih]

theorem sumBytes_congr {s t : State} (hb : s.buf = t.buf) (hl : s.len = t.len) (n : Nat) :
    sumBytes s n = sumBytes t n := by
  induction n with
  | zero => rfl
  | succ n ih => simp [sumBytes, readByte_congr hb hl, ih]

theorem readByte_of_holds {s : State} {f : Nat → Byte} (h : HoldsFrame s f) {a : Nat} (ha : a < s.len.toNat) :
    readByte s a = .ok (f a) :=
  readByte_ok_iff.mpr ⟨ha, h a ha⟩

/-- A little-endian number starts with its low byte. -/
theorem frameLE_succ (f : Nat → Byte) (a w : Nat) :
    frameLE f a (w + 1) = (f a).toNat + 256 * frameLE f (a + 1) w := by
  unfold frameLE
  rw [Finset.sum_range_succ', Finset.mul_sum, Nat.add_comm]
  congr 1
  · simp
  · refine Finset.sum_congr rfl fun k _ => ?_
    rw [show a + (k + 1) = a + 1 + k by omega, pow_succ]
    ring

theorem readLE_of_holds {s : State} {f : Nat → Byte} (h : HoldsFrame s f) {a w : Nat} (ha : a + w ≤ s.len.toNat) :
    readLE s a w = .ok (frameLE f a w) := by
  induction w generalizing a with
  | zero => simp [readLE, frameLE]
  | succ w ih =>
    rw [frameLE_succ, readLE, readByte_of_holds h (by omega), ih (by omega)]
    rfl

theorem frameSum_succ (f : Nat → Byte) (n : Nat) : frameSum f (n + 1) = frameSum f n + (f n).toNat :=
  Finset.sum_range_succ _ n

theorem sumBytes_of_holds {s : State} {f : Nat → Byte} (h : HoldsFrame s f) {n : Nat} (hn : n ≤ s.len.toNat) :
    sumBytes s n = .ok (frameSum f n) := by
  induction n with
  | zero => simp [sumBytes, frameSum]
  | succ n ih =>
    rw [sumBytes, ih (by omega), readByte_of_holds h (by omega), frameSum_succ]
    rfl

/-- A little-endian number of `w` bytes is below `256 ^ w`. -/
theorem frameLE_lt (f : Nat → Byte) (a w : Nat) : frameLE f a w < 256 ^ w := by
  induction w generalizing a with
  | zero => simp [frameLE]
  | succ w ih =>
    rw [frameLE_succ, pow_succ]
    have h := ih (a + 1)
    have := (f a).isLt
    omega

/-- A state whose written cells are `0 .. LEN-1` holds the frame of its own bytes. -/
theorem HoldsFrame.of_filled {s : State} (h : s.buf.map Prod.fst = List.range s.len.toNat) :
    HoldsFrame s fun a => (Memory.read s.buf a).getD 0 := by
  intro a ha
  obtain ⟨b, hb⟩ := (Memory.read_of_filled h a).mpr ha
  simp [hb]

/-! ### The stages of `DECODE` -/

/-- `DECODE` computes its registers from the configuration, the frame and `OVF` only. -/
theorem validate_congr {s t : State} (hc : s.cfg = t.cfg) (hb : s.buf = t.buf) (hl : s.len = t.len)
    (ho : s.ovf = t.ovf) : validate s = validate t := by
  simp [validate, csum16, carriedChecksum, headerCount, hc, hl, ho, readLE_congr hb hl, sumBytes_congr hb hl]

/-- What `DECODE` leaves when it answers a next state: the computed registers, `DONE`, slot 0 and its response. -/
theorem execDecode_next {s t : State} (h : execDecode s = .next t) :
    ∃ v, validate s = .ok v ∧ t = accept { s.setVerdict v with phase := .done, idx := 0#16 } := by
  unfold execDecode at h
  cases hv : validate s with
  | error f => simp [hv, Except.map] at h
  | ok v =>
    simp only [hv, Except.map, ofExcept_ok, Host.Outcome.next.injEq] at h
    exact ⟨v, rfl, h.symm⟩

theorem execDecode_of_validate {s : State} {v : Verdict} (h : validate s = .ok v) :
    execDecode s = .next (accept { s.setVerdict v with phase := .done, idx := 0#16 }) := by
  simp [execDecode, h, Except.map]

/-! ### The commands whose meaning has cases -/

/-- What `PUSH` does when it answers a next state (R62). -/
theorem execPush_cases {b : Byte} {s t : State} (h : execPush b s = .next t) :
    (s.phase = .done ∧ t = reject .frozen s) ∨
    (s.phase = .load ∧ s.len.toNat = s.cfg.ncap ∧ t = reject .overrun { s with ovf := true }) ∨
    (s.phase = .load ∧ s.len.toNat < s.cfg.ncap ∧
      t = accept { s with buf := Memory.write s.buf s.len.toNat b, len := s.len + 1#16 }) := by
  unfold execPush at h
  split at h
  · rename_i hp
    cases h
    exact .inl ⟨hp, rfl⟩
  · rename_i hp
    have hp : s.phase = .load := by cases hq : s.phase <;> simp_all
    split at h
    · rename_i hl
      cases h
      exact .inr (.inl ⟨hp, hl, rfl⟩)
    · by_cases hc : s.len.toNat < s.cfg.ncap
      · rw [appendByte, bufWrite, if_pos hc] at h
        cases h
        exact .inr (.inr ⟨hp, hc, rfl⟩)
      · rw [appendByte, bufWrite, if_neg hc] at h
        cases h

/-- What `RDF` does when it answers a next state (R81). -/
theorem execRdf_cases {f : Field} {s t : State} (h : execRdf f s = .next t) :
    (avail s = false ∧ t = reject .noFace s) ∨
    (avail s = true ∧ ∃ v, fieldValue s s.idx.toNat f = .ok v ∧ t = respond true v s) := by
  unfold execRdf at h
  split at h
  · rename_i ha
    cases hv : fieldValue s s.idx.toNat f with
    | error e => simp [hv, Except.map] at h
    | ok v =>
      simp only [hv, Except.map, ofExcept_ok, Host.Outcome.next.injEq] at h
      exact .inr ⟨ha, v, rfl, h.symm⟩
  · rename_i ha
    cases h
    exact .inl ⟨by simpa using ha, rfl⟩

/-- What `NEXT` does (R82). -/
theorem execNext_cases {s t : State} (h : execNext s = .next t) :
    (avail s = false ∧ t = reject .iterEnd s) ∨
    (avail s = true ∧ t = accept { s with idx := s.idx + 1#16 }) := by
  unfold execNext at h
  split at h
  · rename_i ha
    cases h
    exact .inr ⟨ha, rfl⟩
  · rename_i ha
    cases h
    exact .inl ⟨by simpa using ha, rfl⟩

/-- Everything a command can do when it answers a next state. -/
theorem exec_cases {i : Instr} {s t : State} (h : exec i s = .next t) :
    (i = .nop ∧ t = accept s) ∨
    (i = .clear ∧ t = accept (clearState s)) ∨
    (∃ b, i = .push b ∧ execPush b s = .next t) ∨
    (i = .decode ∧ execDecode s = .next t) ∨
    (i = .next ∧ execNext s = .next t) ∨
    (i = .rewind ∧ t = accept { s with idx := 0#16 }) ∨
    (∃ f, i = .rdf f ∧ execRdf f s = .next t) ∨
    (∃ g, i = .rdreg g ∧ t = respond true (regValue s g) s) := by
  cases i with
  | nop => cases h; exact .inl ⟨rfl, rfl⟩
  | clear => cases h; exact .inr (.inl ⟨rfl, rfl⟩)
  | push b => exact .inr (.inr (.inl ⟨b, rfl, h⟩))
  | decode => exact .inr (.inr (.inr (.inl ⟨rfl, h⟩)))
  | next => exact .inr (.inr (.inr (.inr (.inl ⟨rfl, h⟩))))
  | rewind => cases h; exact .inr (.inr (.inr (.inr (.inr (.inl ⟨rfl, rfl⟩)))))
  | rdf f => exact .inr (.inr (.inr (.inr (.inr (.inr (.inl ⟨f, rfl, h⟩))))))
  | rdreg g => cases h; exact .inr (.inr (.inr (.inr (.inr (.inr (.inr ⟨g, rfl, rfl⟩))))))

/-! ### The step -/

/-- Everything a step can do when it answers a next state. -/
theorem step_cases {s t : State} (h : step s = .next t) :
    s.cfg.wf = true ∧
    ((s.port = [] ∧ t = idle s) ∨
     (∃ rest, s.port = .reset :: rest ∧ t = clearState { s with port := rest }) ∨
     (∃ w rest i, s.port = .command w :: rest ∧ decode w = .ok i ∧ exec i { s with port := rest } = .next t) ∨
     (∃ w rest r, s.port = .command w :: rest ∧ decode w = .error r ∧
        t = reject .illegal { s with port := rest })) := by
  unfold step guardConfig at h
  split at h
  · rename_i hw
    refine ⟨hw, ?_⟩
    unfold takeInput at h
    split at h
    · rename_i hp
      cases h
      exact .inl ⟨hp, rfl⟩
    · rename_i rest hp
      cases h
      exact .inr (.inl ⟨rest, hp, rfl⟩)
    · rename_i w rest hp
      unfold runWord at h
      split at h
      · rename_i i hi
        exact .inr (.inr (.inl ⟨w, rest, i, hp, hi, h⟩))
      · rename_i r hr
        cases h
        exact .inr (.inr (.inr ⟨w, rest, r, hp, hr, rfl⟩))
  · cases h

/-- A step of a well-formed block with a command at the port runs that word. -/
theorem step_command {s : State} {w : Word} {rest : List HostInput} (hw : s.cfg.wf = true)
    (hp : s.port = .command w :: rest) : step s = runWord w { s with port := rest } := by
  simp [step, guardConfig, hw, takeInput, hp]

end Sys2Proof.Machine
end

