-- ==== Sys2Proof/Laws/PerInstr.lean ====
section
/-! SUPPORT. Per-instruction laws about the commands as syntax. The family `Encoding`: the word of a command carries
its opcode of the map of 30_encoding.md R50 in bits 15 to 8 and its operand byte in bits 7 to 0 (R48), and that operand
byte is a legal one of the opcode's form (R49). -/

namespace Sys2Proof.Laws.Encoding

/-- The legal operand bytes of a command's form (R49). -/
def legalOperand : Instr → Nat → Prop
  | .nop, x => x = 0
  | .clear, x => x = 0
  | .push _, x => x < 256
  | .decode, x => x = 0
  | .next, x => x = 0
  | .rewind, x => x = 0
  | .rdf _, x => x ≤ 7
  | .rdreg _, x => x ≤ 0x0E

def Statement (i : Instr) : Prop :=
  (encode i).toNat = i.opcode.toNat * 256 + i.operand.toNat ∧ legalOperand i i.operand.toNat

/-- A word made of two bytes is `op · 256 + x` (R48). -/
theorem encode_toNat (i : Instr) : (encode i).toNat = i.opcode.toNat * 256 + i.operand.toNat := by
  have h := i.operand.isLt
  rw [encode, BitVec.toNat_append, ← Nat.shiftLeft_add_eq_or_of_lt h, Nat.shiftLeft_eq]

theorem nop : Statement .nop := ⟨encode_toNat _, rfl⟩

theorem clear : Statement .clear := ⟨encode_toNat _, rfl⟩

theorem push (b : Byte) : Statement (.push b) := ⟨encode_toNat _, b.isLt⟩

theorem decode : Statement .decode := ⟨encode_toNat _, rfl⟩

theorem next : Statement .next := ⟨encode_toNat _, rfl⟩

theorem rewind : Statement .rewind := ⟨encode_toNat _, rfl⟩

theorem rdf (f : Field) : Statement (.rdf f) :=
  ⟨encode_toNat _, by show _ ≤ 7; cases f <;> decide⟩

theorem rdreg (g : Reg) : Statement (.rdreg g) :=
  ⟨encode_toNat _, by show _ ≤ 0x0E; cases g <;> decide⟩

end Sys2Proof.Laws.Encoding
end

