-- ==== Sys2Proof/Tests/Slice0.lean ====
section
/-! SUPPORT. The model's own tests. Expected values come from spec/95_test_vectors.md and from the rules' examples; the
second half holds, for each statement with hypotheses, a concrete state that meets them. -/

open Sys2Proof Sys2Proof.Machine

namespace Sys2Proof.Tests

/-! ### Helpers -/

/-- The next state of an outcome. -/
def nextOf : Host.Outcome State Fault Refusal → Option State
  | .next s => some s
  | .fault _ => none
  | .refused _ => none

/-- An outcome is a next state. -/
def isNext (o : Host.Outcome State Fault Refusal) : Bool := (nextOf o).isSome

theorem exists_next {o : Host.Outcome State Fault Refusal} (h : isNext o = true) : ∃ t, o = .next t := by
  cases o with
  | next s => exact ⟨s, rfl⟩
  | fault f => cases h
  | refused r => cases h

/-- The response of an outcome. -/
def respOf (o : Host.Outcome State Fault Refusal) : Option Response := (nextOf o).bind State.resp

/-- A block that holds these bytes and has not decoded them. -/
def holding (c : Config) (bytes : List Byte) : State :=
  { State.resetFor c with buf := (List.range bytes.length).zip bytes, len := BitVec.ofNat 16 bytes.length }

/-- The bytes of a frame as a function of the address. -/
def byteAt (bytes : List Byte) (a : Nat) : Byte := bytes.getD a 0#8

/-- The state `DECODE` leaves. -/
def decoded (s : State) : State := (nextOf (exec .decode s)).getD s

/-- Frame `F1` of 95_test_vectors.md: one face. -/
def f1 : List Byte := [0, 0, 0, 0, 1] ++ [0x0A, 0x14, 0x32, 0x50, 0x5C, 0x01, 0xFF, 0x00] ++ [0xFD, 0x01]

/-- Frame `F3` of 95_test_vectors.md: two faces in a padded frame. -/
def f3 : List Byte :=
  [0, 0, 0, 0, 2] ++ [0x01, 0x02, 0x03, 0x04, 0xC8, 0x02, 0x80, 0xFF] ++
    [0x0B, 0x0C, 0x0D, 0x0E, 0x0F, 0x00, 0x7F, 0x65] ++ List.replicate 16 0 ++ [0x7A, 0x03]

/-- Config `BIG` of 95_test_vectors.md. -/
def big : Config := { Config.default with ncap := 1024 }

/-- Config `WIDE` of 95_test_vectors.md. -/
def wide : Config where
  ncap := 30
  h := 2
  cntOff := 0
  cntW := 2
  r := 13
  m := 2
  offX1 := 0
  offY1 := 2
  offX2 := 4
  offY2 := 6
  wX1 := 2
  wY1 := 2
  wX2 := 2
  wY2 := 2
  offConf := 8
  offFacing := 9
  offRid := 10
  offRconf := 12
  wRid := 2

/-- The one-face frame of the `WIDE` table of 95_test_vectors.md. -/
def fWide : List Byte :=
  [0x01, 0x00] ++ [0x40, 0x01, 0xF0, 0x00, 0x80, 0x02, 0xE0, 0x01, 0x63, 0x00, 0xFE, 0xFF, 0x32] ++ [0x27, 0x05]

/-- A state with one command word at the port. -/
def withWord (w : Word) (s : State) : State := { s with port := [.command w] }

/-! ### Well-formedness: each check refuses an ill-formed term (00_scope.md R5, R7) -/

theorem test_wf_configs : Config.default.wf = true ∧ big.wf = true ∧ wide.wf = true := by decide

theorem test_wf_capacity :
    ({ Config.default with ncap := 6 } : Config).wf = false ∧
    ({ Config.default with ncap := 65536 } : Config).wf = false := by decide

theorem test_wf_countField :
    ({ Config.default with cntW := 3, cntOff := 0 } : Config).wf = false ∧
    ({ Config.default with cntW := 0 } : Config).wf = false ∧
    ({ Config.default with cntOff := 5 } : Config).wf = false := by decide

theorem test_wf_record :
    ({ Config.default with r := 0 } : Config).recordOk = false ∧
    ({ Config.default with r := 65536 } : Config).wf = false ∧
    ({ Config.default with m := 65536 } : Config).wf = false := by decide

theorem test_wf_box :
    ({ Config.default with offX1 := 8 } : Config).wf = false ∧
    ({ Config.default with offY1 := 8 } : Config).wf = false ∧
    ({ Config.default with offX2 := 8 } : Config).wf = false ∧
    ({ Config.default with offY2 := 8 } : Config).wf = false ∧
    ({ Config.default with wX1 := 3 } : Config).wf = false ∧
    ({ Config.default with wY1 := 0 } : Config).wf = false ∧
    ({ Config.default with wX2 := 3 } : Config).wf = false ∧
    ({ Config.default with wY2 := 0 } : Config).wf = false := by decide

theorem test_wf_identity :
    ({ Config.default with offConf := 8 } : Config).wf = false ∧
    ({ Config.default with offFacing := 8 } : Config).wf = false ∧
    ({ Config.default with offRconf := 8 } : Config).wf = false ∧
    ({ Config.default with offRid := 7, wRid := 2 } : Config).wf = false ∧
    ({ Config.default with wRid := 0 } : Config).wf = false := by decide

/-- Overlapping fields are allowed (R7). -/
theorem test_wf_overlap : ({ Config.default with offY1 := 0, offConf := 0 } : Config).wf = true := by decide

/-! ### Decoding, words written bit by bit from 30_encoding.md R48 to R54 -/

theorem test_decode_nop : decode 0b0000000000000000#16 = .ok .nop := by decide
theorem test_decode_clear : decode 0b0000000100000000#16 = .ok .clear := by decide
theorem test_decode_push : decode 0b0000001010100101#16 = .ok (.push 0xA5#8) := by decide
theorem test_decode_decode : decode 0b0000001100000000#16 = .ok .decode := by decide
theorem test_decode_next : decode 0b0000010000000000#16 = .ok .next := by decide
theorem test_decode_rewind : decode 0b0000010100000000#16 = .ok .rewind := by decide
theorem test_decode_rdf :
    decode 0b0000011000000000#16 = .ok (.rdf .x1) ∧ decode 0b0000011000000101#16 = .ok (.rdf .facing) ∧
    decode 0b0000011000000111#16 = .ok (.rdf .rconf) := by decide
theorem test_decode_rdreg :
    decode 0b0000011100000000#16 = .ok (.rdreg .status) ∧ decode 0b0000011100001000#16 = .ok (.rdreg .rej) ∧
    decode 0b0000011100001110#16 = .ok (.rdreg .version) := by decide

/-- The illegal words of the decoding table of 95_test_vectors.md, each by the name of its reason. -/
theorem test_decode_illegal :
    decode 0x0001#16 = .error .nonzeroOperand ∧ decode 0x00FF#16 = .error .nonzeroOperand ∧
    decode 0x0180#16 = .error .nonzeroOperand ∧ decode 0x0301#16 = .error .nonzeroOperand ∧
    decode 0x0608#16 = .error .fieldSelect ∧ decode 0x0610#16 = .error .fieldSelect ∧
    decode 0x06F0#16 = .error .fieldSelect ∧ decode 0x070F#16 = .error .registerIndex ∧
    decode 0x07FF#16 = .error .registerIndex ∧ decode 0x0800#16 = .error .reservedOpcode ∧
    decode 0xFF00#16 = .error .reservedOpcode ∧ decode 0xFFFF#16 = .error .reservedOpcode := by decide

theorem test_encode :
    encode .nop = 0x0000#16 ∧ encode .clear = 0x0100#16 ∧ encode (.push 0x0A#8) = 0x020A#16 ∧
    encode .decode = 0x0300#16 ∧ encode .next = 0x0400#16 ∧ encode .rewind = 0x0500#16 ∧
    encode (.rdf .rconf) = 0x0607#16 ∧ encode (.rdreg .id) = 0x070D#16 := by decide

theorem test_decodeTableWord :
    decodeTableWord 16 0x0607 = some (.rdf .rconf) ∧ decodeTableWord 16 0x0800 = none := by decide

/-! ### One step from reset, by the decoding table of 95_test_vectors.md -/

theorem test_step_nop : respOf (step (State.reset.withFetchWord 16 0x0000)) = some ⟨true, 0x0000#16⟩ := by decide
theorem test_step_illegal :
    respOf (step (State.reset.withFetchWord 16 0x0800)) = some ⟨false, 0x0020#16⟩ ∧
    (nextOf (step (State.reset.withFetchWord 16 0x0800))).map (fun s => (s.ill, s.rej)) =
      some (true, Reject.illegal) := by decide
theorem test_step_clear : respOf (step (State.reset.withFetchWord 16 0x0100)) = some ⟨true, 0x0000#16⟩ := by decide
theorem test_step_decode : respOf (step (State.reset.withFetchWord 16 0x0300)) = some ⟨true, 0x000A#16⟩ := by decide
theorem test_step_next :
    respOf (step (State.reset.withFetchWord 16 0x0400)) = some ⟨false, 0x0000#16⟩ ∧
    (nextOf (step (State.reset.withFetchWord 16 0x0400))).map State.rej = some .iterEnd := by decide
theorem test_step_rewind : respOf (step (State.reset.withFetchWord 16 0x0500)) = some ⟨true, 0x0000#16⟩ := by decide
theorem test_step_rdf :
    respOf (step (State.reset.withFetchWord 16 0x0607)) = some ⟨false, 0x0000#16⟩ ∧
    (nextOf (step (State.reset.withFetchWord 16 0x0607))).map State.rej = some .noFace := by decide
theorem test_step_rdreg : respOf (step (State.reset.withFetchWord 16 0x070E)) = some ⟨true, 0x0001#16⟩ := by decide
theorem test_step_push :
    (nextOf (step (State.reset.withFetchWord 16 0x020A))).map (fun s => (s.buf, s.len, s.resp)) =
      some ([(0, 0x0A#8)], 1#16, some ⟨true, 0x0000#16⟩) := by decide

/-! ### Commands, by the tables of 95_test_vectors.md -/

theorem test_push_overrun :
    (nextOf (exec (.push 0) (holding Config.default (List.replicate 39 0)))).map
      (fun s => (s.ovf, s.rej, s.len, s.resp)) = some (true, .overrun, 39#16, some ⟨false, 0x0010#16⟩) := by decide

theorem test_push_frozen :
    (nextOf (exec (.push 0) { decoded (holding Config.default f1) with idx := 1#16 })).map
      (fun s => (s.ovf, s.rej, s.len, s.resp)) = some (false, .frozen, 15#16, some ⟨false, 0x0009#16⟩) := by decide

theorem test_clear_decoded :
    (nextOf (exec .clear (decoded (holding Config.default f1)))) =
      some { State.reset with resp := some ⟨true, 0x0000#16⟩ } := by decide

/-- L1.1: `F1`. -/
theorem test_decode_f1 :
    (nextOf (exec .decode (holding Config.default f1))).map (fun s => (s.verdict, s.resp)) =
      some (⟨.ok, 1, 1, 0x01FD, 0x01FD, 1⟩, some ⟨true, 0x0049#16⟩) := by decide

/-- L1.3: a wrong checksum, and the checksum bytes swapped. -/
theorem test_decode_mismatch :
    (nextOf (exec .decode (holding Config.default (f1.take 13 ++ [0, 0])))).map (fun s => (s.verdict, s.resp)) =
      some (⟨.csumMismatch, 0, 0, 0x01FD, 0, 0⟩, some ⟨true, 0x000B#16⟩) ∧
    (nextOf (exec .decode (holding Config.default (f1.take 13 ++ [0x01, 0xFD])))).map State.expect =
      some 0xFD01#16 := by decide

/-- L1.2, L1.4: the minimum frame and one byte less. -/
theorem test_decode_minimum :
    respOf (exec .decode (holding Config.default (List.replicate 7 0))) = some ⟨true, 0x0009#16⟩ ∧
    respOf (exec .decode (holding Config.default (List.replicate 6 0))) = some ⟨true, 0x000A#16⟩ := by decide

/-- L1.5: too many faces. -/
theorem test_decode_invalidCount :
    (nextOf (exec .decode
      (holding Config.default ([0, 0, 0, 0, 5] ++ List.replicate 32 0 ++ [5, 0])))).map
      (fun s => (s.verdict, s.resp)) =
      some (⟨.invalidCount, 0, 5, 5, 5, 4⟩, some ⟨true, 0x000C#16⟩) := by decide

/-- The overrun row: `OVF = 1`, `LEN = 39`. -/
theorem test_decode_overrun :
    respOf (exec .decode { holding Config.default (List.replicate 39 0) with ovf := true }) =
      some ⟨true, 0x001D#16⟩ := by decide

set_option maxRecDepth 8000 in
/-- The `BIG` row: the sum wraps. -/
theorem test_decode_wrap :
    (nextOf (exec .decode
      (holding big (List.replicate 4 0xFF ++ [0x00] ++ List.replicate 256 0xFF ++ [0xFC, 0x02])))).map
      State.verdict = some ⟨.ok, 0, 0, 0x02FC, 0x02FC, 4⟩ := by decide

/-- The `WIDE` rows. -/
theorem test_decode_wide :
    (nextOf (exec .decode (holding wide fWide))).map State.verdict = some ⟨.ok, 1, 1, 0x0527, 0x0527, 1⟩ ∧
    (nextOf (exec .decode (holding wide ([0x02, 0x01] ++ List.replicate 26 0 ++ [0x03, 0x00])))).map State.verdict =
      some ⟨.invalidCount, 0, 0x0102, 3, 3, 2⟩ := by decide

/-- The eight fields of `F1` (L1.1). -/
theorem test_rdf_f1 :
    [Field.x1, .y1, .x2, .y2, .conf, .facing, .rid, .rconf].map
      (fun f => respOf (exec (.rdf f) (decoded (holding Config.default f1)))) =
      [0x000A, 0x0014, 0x0032, 0x0050, 0x005C, 0x0001, 0xFFFF, 0x0000].map (fun v => some ⟨true, v⟩) := by decide

/-- The eight fields of the `WIDE` frame. -/
theorem test_rdf_wide :
    [Field.x1, .y1, .x2, .y2, .conf, .facing, .rid, .rconf].map
      (fun f => respOf (exec (.rdf f) (decoded (holding wide fWide)))) =
      [0x0140, 0x00F0, 0x0280, 0x01E0, 0x0063, 0x0000, 0xFFFE, 0x0032].map (fun v => some ⟨true, v⟩) := by decide

/-- `F3`, slot 0: values out of range and a negative id; slot 1. -/
theorem test_rdf_f3 :
    [Field.conf, .facing, .rid, .rconf].map
      (fun f => respOf (exec (.rdf f) (decoded (holding Config.default f3)))) =
      [0x00C8, 0x0001, 0xFF80, 0x00FF].map (fun v => some ⟨true, v⟩) ∧
    [Field.x1, .facing, .rid, .rconf].map
      (fun f => respOf (exec (.rdf f) { decoded (holding Config.default f3) with idx := 1#16 })) =
      [0x000B, 0x0000, 0x007F, 0x0065].map (fun v => some ⟨true, v⟩) := by decide

theorem test_next_f3 :
    (nextOf (exec .next { decoded (holding Config.default f3) with idx := 1#16 })).map (fun s => (s.idx, s.resp)) =
      some (2#16, some ⟨true, 0x0009#16⟩) ∧
    (nextOf (exec .next { decoded (holding Config.default f3) with idx := 2#16 })).map
      (fun s => (s.idx, s.rej, s.resp)) = some (2#16, .iterEnd, some ⟨false, 0x0009#16⟩) := by decide

theorem test_rewind_f3 :
    (nextOf (exec .rewind { decoded (holding Config.default f3) with idx := 2#16 })).map (fun s => (s.idx, s.resp)) =
      some (0#16, some ⟨true, 0x0049#16⟩) := by decide

/-- The register map from reset. -/
theorem test_rdreg_reset :
    [Reg.status, .len, .count, .rawCount, .idx, .calcSum, .expect, .maxf, .rej, .cfgNcap, .cfgH, .cfgR, .cfgM, .id,
      .version].map (fun g => respOf (exec (.rdreg g) State.reset)) =
      [0, 0, 0, 0, 0, 0, 0, 0, 0, 0x0027, 0x0005, 0x0008, 0x0004, 0xFC16, 0x0001].map
        (fun v => some ⟨true, v⟩) := by decide

/-- Reading an unwritten cell faults (R11), and so does a push past `NCAP` in a state no run reaches. -/
theorem test_faults :
    readByte State.reset 0 = .error (.bufNoValue 0) ∧
    readByte { holding Config.default f1 with buf := [] } 3 = .error (.bufNoValue 3) ∧
    readByte (holding Config.default f1) 15 = .error (.bufNoValue 15) ∧
    isNext (exec (.push 0) { State.reset with len := 40#16 }) = false := by decide

/-! ### The assembler (R58, R59) -/

theorem test_asm_text :
    Asm.assemble "loadf 0,0, 0,0,0x01 ; header\n\nPUSHCS\nDecode\nRDF rid\nRDREG 0x0D\n.word 0x0800".toList =
      .ok ([0x0100, 0x0200, 0x0200, 0x0200, 0x0200, 0x0201, 0x0201, 0x0200] ++ [0x0300, 0x0606, 0x070D, 0x0800]) := by
  decide

theorem test_asm_refuses :
    Asm.assemble "PUSH 256".toList = .error .outOfRange ∧ Asm.assemble "RDF 8".toList = .error .outOfRange ∧
    Asm.assemble "RDREG 0x0F".toList = .error .outOfRange ∧ Asm.assemble "PUSHW 65536".toList = .error .outOfRange ∧
    Asm.assemble "PUSHCS".toList = .error .noFrameStart ∧ Asm.assemble "NOP 0".toList = .error .extraOperand ∧
    Asm.assemble "PUSH".toList = .error .missingOperand ∧ Asm.assemble "HALT".toList = .error .unknownMnemonic ∧
    Asm.assemble ".word 0x800".toList = .error .badOperand := by decide

/-- `PUSHCS` of program P1. -/
theorem test_asm_pushcs :
    Asm.assembleLines [.command (.loadF (f1.take 13)), .command .pushCs] =
      .ok (0x0100 :: f1.map fun b => 0x02#8 ++ b) := by decide

/-! ### Witnesses: concrete states that meet the hypotheses of the statements -/

theorem holds_of_decide {s : State} {bytes : List Byte}
    (h : (List.range s.len.toNat).all (fun a => decide (Memory.read s.buf a = some (byteAt bytes a))) = true) :
    HoldsFrame s (byteAt bytes) := by
  intro a ha
  simpa using List.all_eq_true.mp h a (List.mem_range.mpr ha)

theorem witness_holdsFrame :
    HoldsFrame (holding Config.default f1) (byteAt f1) ∧
    HoldsFrame (decoded (holding Config.default f1)) (byteAt f1) ∧
    HoldsFrame (holding Config.default f3) (byteAt f3) ∧ HoldsFrame (holding wide fWide) (byteAt fWide) :=
  ⟨holds_of_decide (by decide), holds_of_decide (by decide), holds_of_decide (by decide), holds_of_decide (by decide)⟩

/-- DecodeFollowsItsStages, FirstFailingStageDecides, AccumulatorGivesTheModularSum: a well-formed block with a held
frame of at least two bytes. -/
theorem witness_heldFrame :
    (holding Config.default f1).cfg.wf = true ∧ HoldsFrame (holding Config.default f1) (byteAt f1) ∧
    2 ≤ (holding Config.default f1).len.toNat ∧
    (List.range ((holding Config.default f1).len.toNat - 2)).reverse.Perm
      (List.range ((holding Config.default f1).len.toNat - 2)) :=
  ⟨by decide, witness_holdsFrame.1, by decide, List.reverse_perm _⟩

/-- The stages of `DECODE` each decide some frame: OverrunStageReadsNoByte, LengthStageReadsNoByte,
DecodeErrorsRecordWhatWasSeen, DecodeKeepsTheRest. -/
theorem witness_everyStage :
    (decoded { State.reset with ovf := true }).result = .overrun ∧
    (decoded (holding Config.default (List.replicate 6 0))).result = .truncated ∧
    (decoded (holding Config.default (f1.take 13 ++ [0, 0]))).result = .csumMismatch ∧
    (decoded (holding Config.default [0, 0, 0, 0, 1, 1, 0])).result = .invalidCount ∧
    (decoded (holding Config.default f1)).result = .ok ∧
    isNext (exec .decode (holding Config.default f1)) = true := by decide

/-- IllegalWordsAreRejected, DecodeFollowsItsCases: one word of each illegal kind, at the boundaries. -/
theorem witness_illegalWords :
    (withWord 0x0800#16 State.reset).cfg.wf = true ∧
    (withWord 0x0800#16 State.reset).port = .command 0x0800#16 :: [] ∧
    [0x0800#16, 0xFFFF#16, 0x0001#16, 0x05FF#16, 0x0608#16, 0x06FF#16, 0x070F#16, 0x07FF#16].all
      (fun w => !spellsCommand w) = true ∧
    [0x0000#16, 0x0200#16, 0x02FF#16, 0x0500#16, 0x0607#16, 0x070E#16].all spellsCommand = true := by decide

/-- StepRunsTheDecodedCommand, StepTakesTheOldestInput, EveryCommandAnswersByTheRule, ConstantRegistersNeverChange:
a command at the port of a well-formed block, whose step answers. -/
theorem witness_commandStep :
    (withWord 0x0200#16 State.reset).cfg.wf = true ∧
    (withWord 0x0200#16 State.reset).port = .command 0x0200#16 :: [] ∧
    decode 0x0200#16 = .ok (.push 0) ∧ ∃ t, step (withWord 0x0200#16 State.reset) = .next t :=
  ⟨by decide, rfl, by decide, exists_next (by decide)⟩

/-- ConstantRegistersNeverChange, its second clause: a configuration that differs in `CNT_OFF` only. -/
theorem witness_noOffsetRegister :
    let c : Config := { State.reset.cfg with cntOff := State.reset.cfg.cntOff + 1 }
    c ≠ State.reset.cfg ∧ c.ncap = State.reset.cfg.ncap ∧ c.h = State.reset.cfg.h ∧ c.r = State.reset.cfg.r ∧
      c.m = State.reset.cfg.m := by decide

/-- IdleStepHoldsState and ResetInputRestoresResetValues. -/
theorem witness_idle_reset :
    State.reset.cfg.wf = true ∧ State.reset.port = [] ∧
    ({ decoded (holding Config.default f1) with port := [.reset] } : State).cfg.wf = true ∧
    ({ decoded (holding Config.default f1) with port := [.reset] } : State).port = .reset :: [] := by decide

/-- IllFormedConfigurationHasNoStep. -/
theorem witness_illFormed : (State.resetFor { Config.default with r := 0 }).cfg.wf = false := by decide

/-- ClearStartsANewFrame, last clause: `CLEAR` clears each of the three. -/
theorem witness_clearClears :
    (nextOf (exec .clear { State.reset with ovf := true, ill := true, phase := .done })).map
      (fun t => (t.ovf, t.ill, t.phase)) = some (false, false, .load) := by decide

/-- PushAppendsOrRejects: each clause at its boundary; FrameLoadCommandsKeepTheRest: rejected and accepted. -/
theorem witness_push :
    (decoded State.reset).phase = .done ∧
    (holding Config.default (List.replicate 39 0)).phase = .load ∧
    (holding Config.default (List.replicate 39 0)).len.toNat = Config.default.ncap ∧
    (holding Config.default (List.replicate 38 0)).phase = .load ∧
    (holding Config.default (List.replicate 38 0)).cfg.wf = true ∧
    (holding Config.default (List.replicate 38 0)).len.toNat < Config.default.ncap ∧
    (respOf (exec (.push 7) (holding Config.default (List.replicate 38 0)))).map Response.ack = some true ∧
    (respOf (exec (.push 7) (holding Config.default (List.replicate 39 0)))).map Response.ack = some false := by
  decide

theorem acked_of {o : Host.Outcome State Fault Refusal} {t : State} (ho : o = .next t)
    (h : (respOf o).map Response.ack = some true) : acked t := by
  subst ho
  cases hr : t.resp with
  | none => simp [respOf, nextOf, hr] at h
  | some r =>
    obtain ⟨a, d⟩ := r
    simp [respOf, nextOf, hr] at h
    exact ⟨d, by rw [hr, h]⟩

/-- LoadedFrameIsThePushedBytes: a run of one accepted `PUSH` from reset, and of none after a `CLEAR`. -/
theorem witness_loadRun :
    (∃ t, LoadRun (withWord 0x020A#16 State.reset) [0x0A#8] t) ∧
    withWord 0x020A#16 State.reset =
      { State.resetFor Config.default with port := [.command 0x020A#16] } ∧
    ∃ start, step (withWord 0x0100#16 (holding Config.default f1)) = .next start ∧ LoadRun start [] start := by
  refine ⟨?_, rfl, ?_⟩
  · obtain ⟨t, ht⟩ := exists_next (o := step (withWord 0x020A#16 State.reset)) (by decide)
    exact ⟨t, .pushed .start (rest := []) rfl (by decide) ht (acked_of ht (by decide))⟩
  · obtain ⟨t, ht⟩ := exists_next (o := step (withWord 0x0100#16 (holding Config.default f1))) (by decide)
    exact ⟨t, ht, .start⟩

/-- DecodeIsIdempotent: `NEXT`, an illegal word and `RDREG` between two `DECODE`s. -/
theorem witness_between :
    (∃ t, exec .decode (holding Config.default f1) = .next t) ∧
    (∀ w ∈ [0x0400#16, 0x0800#16, 0x0705#16], decode w ≠ .ok .clear ∧ ∀ b, decode w ≠ .ok (.push b)) ∧
    ∃ u, stepMany 3 (sending [0x0400#16, 0x0800#16, 0x0705#16] (decoded (holding Config.default f1))) = .next u := by
  refine ⟨exists_next (by decide), ?_, exists_next (by decide)⟩
  intro w hw
  simp only [List.mem_cons, List.not_mem_nil, or_false] at hw
  rcases hw with rfl | rfl | rfl <;> exact ⟨by decide, fun b h => by cases h⟩

/-- SingleBitFlipIsAlwaysDetected: `F1`, a byte before the checksum (L1.6) and both checksum bytes. -/
theorem witness_bitFlip :
    (∃ t, exec .decode (holding Config.default f1) = .next t) ∧
    (decoded (holding Config.default f1)).result = .ok ∧
    Memory.read (holding Config.default f1).buf 5 = some 0x0A#8 ∧
    Memory.read (holding Config.default f1).buf 13 = some 0xFD#8 ∧
    Memory.read (holding Config.default f1).buf 14 = some 0x01#8 ∧
    (holding Config.default f1).len.toNat = 15 ∧
    (decoded { holding Config.default f1 with
      buf := Memory.write (holding Config.default f1).buf 5 (0x0A#8 ^^^ (1#8 <<< 7)) }).calcSum = 0x027D#16 :=
  ⟨exists_next (by decide), by decide⟩

/-- EqualSumsPassTogether: `F1` with `x1` and `y1` swapped. -/
theorem witness_swap :
    HoldsFrame (holding Config.default ([0, 0, 0, 0, 1, 0x14, 0x0A] ++ f1.drop 7))
      (byteAt ([0, 0, 0, 0, 1, 0x14, 0x0A] ++ f1.drop 7)) ∧
    frameSum (byteAt f1) 13 % 65536 = frameSum (byteAt ([0, 0, 0, 0, 1, 0x14, 0x0A] ++ f1.drop 7)) 13 % 65536 ∧
    byteAt f1 13 = byteAt ([0, 0, 0, 0, 1, 0x14, 0x0A] ++ f1.drop 7) 13 ∧
    byteAt f1 14 = byteAt ([0, 0, 0, 0, 1, 0x14, 0x0A] ++ f1.drop 7) 14 :=
  ⟨holds_of_decide (by decide), by decide⟩

/-- RdfReadsTheCurrentSlot: no record current, and the last slot of a frame. -/
theorem witness_rdf :
    avail State.reset = false ∧ avail (decoded (holding Config.default f1)) = true ∧
    (decoded (holding Config.default f1)).cfg.wf = true ∧
    HoldsFrame (decoded (holding Config.default f1)) (byteAt f1) ∧
    Config.default.h + ((decoded (holding Config.default f1)).idx.toNat + 1) * Config.default.r ≤
      (decoded (holding Config.default f1)).len.toNat :=
  ⟨by decide, by decide, by decide, witness_holdsFrame.2.1, by decide⟩

theorem inv_of_decide {s : State}
    (h : (s.cfg.wf && Memory.wf s.buf && decide (s.buf.map Prod.fst = List.range s.len.toNat) &&
      decide (s.len.toNat ≤ s.cfg.ncap) && decide (s.ovf = true → s.len.toNat = s.cfg.ncap) &&
      decide (s.phase = .load → s.verdict = Verdict.only .none) &&
      decide (s.phase = .done → validate s = .ok s.verdict) && decide (s.idx.toNat ≤ s.count.toNat)) = true) :
    s.Inv := by
  simp only [Bool.and_eq_true, decide_eq_true_eq] at h
  obtain ⟨⟨⟨⟨⟨⟨⟨h1, h2⟩, h3⟩, h4⟩, h5⟩, h6⟩, h7⟩, h8⟩ := h
  exact ⟨h1, h2, h3, h4, h5, h6, h7, h8⟩

/-- The invariant holds of blocks in every situation: empty, loading, full with a lost byte, decoded with an `OK`, at
the end of its records, and decoded with each error: StepKeepsInv, NoStepFromInvStops, DecodeRegistersAgree,
IteratorStaysInsideTheFrame, FailedDecodeExposesNoRecord, RewindReturnsToSlotZero, OverrunStageReadsNoByte. -/
theorem witness_inv :
    State.reset.Inv ∧ (holding Config.default f1).Inv ∧
    ({ holding Config.default (List.replicate 39 0) with ovf := true } : State).Inv ∧
    (decoded (holding Config.default f1)).Inv ∧
    ({ decoded (holding Config.default f3) with idx := 2#16 } : State).Inv ∧
    (decoded (holding wide fWide)).Inv ∧ (decoded State.reset).Inv ∧
    (decoded (holding Config.default (f1.take 13 ++ [0, 0]))).Inv ∧
    (decoded (holding Config.default [0, 0, 0, 0, 1, 1, 0])).Inv :=
  ⟨inv_of_decide (by decide), inv_of_decide (by decide), inv_of_decide (by decide), inv_of_decide (by decide),
    inv_of_decide (by decide), inv_of_decide (by decide), inv_of_decide (by decide), inv_of_decide (by decide),
    inv_of_decide (by decide)⟩

/-- NextAdvancesOneSlot, FailedDecodeExposesNoRecord and IteratorStaysInsideTheFrame: a record current, none, and a
failed `DECODE`. -/
theorem witness_iterator :
    avail (decoded (holding Config.default f3)) = true ∧
    avail { decoded (holding Config.default f3) with idx := 2#16 } = false ∧
    (decoded (holding Config.default (f1.take 13 ++ [0, 0]))).result ≠ .ok ∧
    (∀ a, Config.default.h ≤ a → a < (decoded (holding Config.default f1)).len.toNat - 2 →
      Memory.read (decoded (holding Config.default f1)).buf a =
        Memory.read (decoded (holding Config.default f1)).buf a) :=
  ⟨by decide, by decide, by decide, fun _ _ _ => rfl⟩

/-- IterationYieldsTheSlotsInOrder: `F3`, with 0, 1 and all 2 records passed. -/
theorem witness_iteration :
    (holding Config.default f3).cfg.wf = true ∧ HoldsFrame (holding Config.default f3) (byteAt f3) ∧
    (∃ t, exec .decode (holding Config.default f3) = .next t) ∧
    (decoded (holding Config.default f3)).result = .ok ∧ (decoded (holding Config.default f3)).count.toNat = 2 :=
  ⟨by decide, witness_holdsFrame.2.2.1, exists_next (by decide), by decide, by decide⟩

/-- IteratorCommandsKeepTheRest: each of the four commands answers a next state, accepted and rejected. -/
theorem witness_iteratorCommands :
    [Instr.rdf .x1, .next, .rewind, .rdreg .len].all
      (fun i => isNext (exec i (decoded (holding Config.default f3))) && isNext (exec i State.reset)) = true := by
  decide

/-- RejectionChangesNothingElse, RejectionReasonsFollowTheTable, OverrunFlagIsSticky, IllegalFlagIsSticky: a step that
rejects for each of the five reasons, and one that accepts. -/
theorem witness_rejections :
    (nextOf (step (withWord 0x0800#16 State.reset))).map (fun t => (t.rej, t.resp.map Response.ack)) =
      some (.illegal, some false) ∧
    (nextOf (step (withWord 0x0200#16 (decoded State.reset)))).map (fun t => (t.rej, t.resp.map Response.ack)) =
      some (.frozen, some false) ∧
    (nextOf (step (withWord 0x0200#16 (holding Config.default (List.replicate 39 0))))).map
      (fun t => (t.rej, t.resp.map Response.ack)) = some (.overrun, some false) ∧
    (nextOf (step (withWord 0x0600#16 State.reset))).map (fun t => (t.rej, t.resp.map Response.ack)) =
      some (.noFace, some false) ∧
    (nextOf (step (withWord 0x0400#16 State.reset))).map (fun t => (t.rej, t.resp.map Response.ack)) =
      some (.iterEnd, some false) ∧
    (nextOf (step (withWord 0x0000#16 State.reset))).map (fun t => (t.rej, t.resp.map Response.ack)) =
      some (.none, some true) := by decide

/-- FrozenFrameStaysUntilClear: a `PUSH` to a decoded block. -/
theorem witness_frozen :
    (withWord 0x0200#16 (decoded State.reset)).phase = .done ∧
    (∃ t, step (withWord 0x0200#16 (decoded State.reset)) = .next t) ∧
    (∀ rest, (withWord 0x0200#16 (decoded State.reset)).port ≠ .reset :: rest) ∧
    ∀ w rest, (withWord 0x0200#16 (decoded State.reset)).port = .command w :: rest → decode w ≠ .ok .clear := by
  refine ⟨by decide, exists_next (by decide), ?_, ?_⟩
  · intro rest h
    cases h
  · intro w rest h
    cases h
    decide

/-- BlocksAreIndependent: two blocks, the first with a word at its port. -/
theorem witness_blocks :
    (∃ s, step (#v[withWord 0x0200#16 State.reset, State.resetFor wide])[(0 : Fin 2)] = .next s) ∧
    (#v[withWord 0x0200#16 State.reset, State.resetFor big])[(0 : Fin 2)] =
      (#v[withWord 0x0200#16 State.reset, State.resetFor wide])[(0 : Fin 2)] :=
  ⟨exists_next (by decide), rfl⟩

/-- OpcodeRowsAreTheDecoder: a word that decodes, with its one row, and words beside it that no row matches. -/
theorem witness_opcodeRows :
    decode 0x070E#16 = .ok (.rdreg .version) ∧
    (opcodeMap.filter fun r => r.matchesWord 0x070E#16).map OpRow.mnemonic = ["RDREG"] ∧
    [0x070F#16, 0x0608#16, 0x0001#16, 0x0800#16].all (fun w => opcodeMap.all fun r => !r.matchesWord w) = true := by
  decide

/-- IllegalFlagIsSticky, its second clause: NOP with `ILL` set answers `STATUS` with bit 5 set, an accepted `RDF` the
same value as with `ILL` clear. -/
theorem witness_illFlag :
    respOf (exec .nop State.reset) = some ⟨true, 0x0000#16⟩ ∧
    respOf (exec .nop { State.reset with ill := true }) = some ⟨true, 0x0020#16⟩ ∧
    respOf (exec (.rdf .rid) (decoded (holding Config.default f1))) = some ⟨true, 0xFFFF#16⟩ ∧
    respOf (exec (.rdf .rid) { decoded (holding Config.default f1) with ill := true }) = some ⟨true, 0xFFFF#16⟩ := by decide

/-- PseudoInstructionsExpandAsTabled: a text that assembles, with a frame of its own, before a frame start; and a body
with no `CLEAR`. -/
theorem witness_pseudo :
    Asm.assembleLines [.command (.loadF [0xFF#8]), .command .pushCs] =
      .ok [0x0100#16, 0x02FF#16, 0x02FF#16, 0x0200#16] ∧
    Instr.clear ∉ [Instr.push 0x01#8, .nop, .push 0xFF#8] := by decide

/-- AssemblerNeverWrapsAnOperand: at each bound, and on both sides of it. -/
theorem witness_operands :
    Asm.number "255".toList = some 255 ∧ Asm.number "0x100".toList = some 256 ∧
    Asm.number "7".toList = some 7 ∧ Asm.number "8".toList = some 8 ∧
    Asm.number "0xe".toList = some 14 ∧ Asm.number "15".toList = some 15 ∧
    Asm.number "65535".toList = some 65535 ∧ Asm.number "0x10000".toList = some 65536 := by decide

/-- AssembledChecksumPasses: the shortest and the longest frame. -/
theorem witness_assembler :
    State.reset.cfg.wf = true ∧ State.reset.cfg.h ≤ (List.replicate 5 (0 : Byte)).length ∧
    (List.replicate 37 (0 : Byte)).length + 2 ≤ State.reset.cfg.ncap := by decide

end Sys2Proof.Tests
end

/-! ## Scope and configuration (00_scope.md)

The ranges of a well-formed configuration as arithmetic, the frame read through `DECODE` and `RDF`, and with these the
statements about the block as a whole: where it has no step, and that it never stops anywhere else. -/

namespace Sys2Proof

/-! ### Well-formed configurations (R5, R7) -/

@[simp] theorem Config.widthOk_iff (w : Nat) : Config.widthOk w = true ↔ w ∈ [1, 2] := by
  simp [Config.widthOk]

@[simp] theorem Config.fieldFits_iff (c : Config) (off w : Nat) : c.fieldFits off w = true ↔ off + w ≤ c.r := by
  simp [Config.fieldFits]

@[simp] theorem Config.capacityOk_iff (c : Config) : c.capacityOk = true ↔ c.h + 2 ≤ c.ncap ∧ c.ncap ≤ 65535 := by
  simp [Config.capacityOk]

@[simp] theorem Config.countFieldOk_iff (c : Config) :
    c.countFieldOk = true ↔ c.cntW ∈ [1, 2] ∧ c.cntOff + c.cntW ≤ c.h := by
  simp only [Config.countFieldOk, Bool.and_eq_true, Config.widthOk_iff, decide_eq_true_eq]

@[simp] theorem Config.recordOk_iff (c : Config) :
    c.recordOk = true ↔ 1 ≤ c.r ∧ c.r ≤ 65535 ∧ c.m ≤ 65535 := by
  simp [Config.recordOk, and_assoc]

@[simp] theorem Config.boxOk_iff (c : Config) :
    c.boxOk = true ↔
      (c.wX1 ∈ [1, 2] ∧ c.offX1 + c.wX1 ≤ c.r) ∧ (c.wY1 ∈ [1, 2] ∧ c.offY1 + c.wY1 ≤ c.r) ∧
      (c.wX2 ∈ [1, 2] ∧ c.offX2 + c.wX2 ≤ c.r) ∧ (c.wY2 ∈ [1, 2] ∧ c.offY2 + c.wY2 ≤ c.r) := by
  simp only [Config.boxOk, Bool.and_eq_true, Config.widthOk_iff, Config.fieldFits_iff, and_assoc]

@[simp] theorem Config.identityOk_iff (c : Config) :
    c.identityOk = true ↔
      (c.offConf + 1 ≤ c.r ∧ c.offFacing + 1 ≤ c.r ∧ c.offRconf + 1 ≤ c.r) ∧
      (c.wRid ∈ [1, 2] ∧ c.offRid + c.wRid ≤ c.r) := by
  simp only [Config.identityOk, Bool.and_eq_true, Config.widthOk_iff, Config.fieldFits_iff, and_assoc]

/-- Well-formedness is the conjunction of its five groups of ranges. -/
theorem Config.wf_iff (c : Config) :
    c.wf = true ↔ c.capacityOk = true ∧ c.countFieldOk = true ∧ c.recordOk = true ∧ c.boxOk = true ∧
      c.identityOk = true := by
  simp only [Config.wf, Bool.and_eq_true, and_assoc]

end Sys2Proof

namespace Sys2Proof.Machine

/-! ### A step and the configuration -/

theorem step_of_not_wf {s : State} (h : s.cfg.wf = false) : step s = .refused .illFormedConfig := by
  simp [step, guardConfig, h]

theorem step_of_wf {s : State} (h : s.cfg.wf = true) : step s = takeInput s := by
  simp [step, guardConfig, h]

/-- Every field lies inside a record (R5). -/
theorem fieldOffset_add_fieldWidth_le {c : Config} (h : c.wf = true) (fld : Field) :
    fieldOffset c fld + fieldWidth c fld ≤ c.r := by
  obtain ⟨-, -, -, hbox, hid⟩ := c.wf_iff.mp h
  obtain ⟨⟨-, hx1⟩, ⟨-, hy1⟩, ⟨-, hx2⟩, ⟨-, hy2⟩⟩ := c.boxOk_iff.mp hbox
  obtain ⟨⟨hconf, hfacing, hrconf⟩, -, hrid⟩ := c.identityOk_iff.mp hid
  cases fld <;> assumption

/-! ### Sign extension (R9) -/

/-- `sext_16` of the low `n` bits is two's-complement sign extension, at every width a 16-bit word can hold. -/
theorem sext16_eq_signExtend (v : Nat) {n : Nat} (h0 : 0 < n) (hn : n ≤ 16) :
    sext16 v n = (BitVec.ofNat n v).signExtend 16 := by
  have hpow : 2 ^ n ≤ 2 ^ 16 := Nat.pow_le_pow_right (by decide) hn
  have hlow : v % 2 ^ n < 2 ^ n := Nat.mod_lt _ (Nat.two_pow_pos n)
  have hword : v % 2 ^ n % 2 ^ 16 = v % 2 ^ n := Nat.mod_eq_of_lt (lt_of_lt_of_le hlow hpow)
  have hmsb : (BitVec.ofNat n v).msb = v.testBit (n - 1) := by
    rw [BitVec.msb_eq_getLsbD_last, BitVec.getLsbD_ofNat]
    simp [h0]
  apply BitVec.eq_of_toNat_eq
  rw [BitVec.toNat_signExtend, hmsb, BitVec.toNat_setWidth, BitVec.toNat_ofNat, hword, sext16]
  cases v.testBit (n - 1)
  · exact hword
  · have hsum : v % 2 ^ n + 2 ^ 16 - 2 ^ n < 2 ^ 16 := by omega
    simp only [if_true, BitVec.toNat_ofNat, Nat.mod_eq_of_lt hsum]
    omega

/-! ### What `DECODE` computes of a frame (R65) -/

theorem frameLE_one (f : Nat → Byte) (a : Nat) : frameLE f a 1 = (f a).toNat := by
  simp [frameLE]

theorem frameLE_two (f : Nat → Byte) (a : Nat) : frameLE f a 2 = (f a).toNat + 256 * (f (a + 1)).toNat := by
  rw [frameLE_succ, frameLE_one]

/-- The checksum of a held frame, as `frameVerdict` writes it (R64). -/
theorem csum16_of_holds {s : State} {f : Nat → Byte} (h : HoldsFrame s f) :
    csum16 s = .ok (BitVec.ofNat 16 (frameSum f (s.len.toNat - 2) % 65536)) := by
  have hmod (n : Nat) : BitVec.ofNat 16 (n % 65536) = BitVec.ofNat 16 n := BitVec.eq_of_toNat_eq (by simp)
  rw [csum16, sumBytes_of_holds h (Nat.sub_le _ _), hmod]
  rfl

/-- The checksum a held frame carries, as `frameVerdict` writes it (R68). -/
theorem carriedChecksum_of_holds {s : State} {f : Nat → Byte} (h : HoldsFrame s f) (hlen : 2 ≤ s.len.toNat) :
    carriedChecksum s =
      .ok (BitVec.ofNat 16 ((f (s.len.toNat - 2)).toNat + 256 * (f (s.len.toNat - 1)).toNat)) := by
  rw [carriedChecksum, readLE_of_holds h (Nat.sub_add_cancel hlen).le, frameLE_two,
    show s.len.toNat - 2 + 1 = s.len.toNat - 1 by omega]
  rfl

/-- The header count of a held frame that is not truncated (R70). -/
theorem headerCount_of_holds {s : State} {f : Nat → Byte} (hwf : s.cfg.wf = true) (h : HoldsFrame s f)
    (hlen : s.cfg.h + 2 ≤ s.len.toNat) : headerCount s = .ok (frameLE f s.cfg.cntOff s.cfg.cntW) := by
  obtain ⟨-, hcnt, -⟩ := s.cfg.wf_iff.mp hwf
  obtain ⟨-, hfit⟩ := s.cfg.countFieldOk_iff.mp hcnt
  exact readLE_of_holds h (by omega)

/-- The two 16-bit checksums differ exactly when their numbers do. -/
theorem checksum_ne_iff (n : Nat) (lo hi : Byte) :
    BitVec.ofNat 16 (n % 65536) ≠ BitVec.ofNat 16 (lo.toNat + 256 * hi.toNat) ↔
      n % 65536 ≠ lo.toNat + 256 * hi.toNat := by
  have := lo.isLt
  have := hi.isLt
  rw [Ne, ← BitVec.toNat_inj, BitVec.toNat_ofNat, BitVec.toNat_ofNat]
  omega

/-- The stages of `DECODE` on a held frame give the registers of the plain-arithmetic reading, without a fault. -/
theorem validate_of_holds {s : State} {f : Nat → Byte} (hwf : s.cfg.wf = true) (h : HoldsFrame s f) :
    validate s = .ok (frameVerdict s.cfg s.len.toNat s.ovf f) := by
  unfold validate frameVerdict
  by_cases hovf : s.ovf = true
  · rw [if_pos hovf, if_pos hovf]
    rfl
  rw [if_neg hovf, if_neg hovf]
  by_cases htrunc : s.len.toNat < s.cfg.h + 2
  · rw [if_pos htrunc, if_pos htrunc]
    rfl
  rw [if_neg htrunc, if_neg htrunc, csum16_of_holds h, carriedChecksum_of_holds h (by omega),
    headerCount_of_holds hwf h (by omega)]
  simp only [bind, Except.bind, checksum_ne_iff]
  split
  · rfl
  · unfold countStage maxFaces
    split <;> rfl

/-- An `OK` verdict: the frame is whole and its count field is `COUNT` and at most `MAXF` (R71, R72). -/
theorem frameVerdict_ok {c : Config} {len : Nat} {ovf : Bool} {f : Nat → Byte}
    (h : (frameVerdict c len ovf f).result = .ok) :
    c.h + 2 ≤ len ∧ (frameVerdict c len ovf f).count = BitVec.ofNat 16 (frameLE f c.cntOff c.cntW) ∧
      frameLE f c.cntOff c.cntW ≤ min c.m ((len - c.h - 2) / c.r) := by
  dsimp only [frameVerdict] at h ⊢
  split at h
  · cases h
  split at h
  · cases h
  split at h
  · cases h
  split at h
  · cases h
  · rename_i hovf htrunc hsum hmany
    simp only [if_neg hovf, if_neg htrunc, if_neg hsum, if_neg hmany]
    exact ⟨by omega, trivial, by omega⟩

/-- In an `OK` frame the current slot ends before the checksum (R71, R84). -/
theorem slot_end_le {s : State} {ovf : Bool} {f : Nat → Byte}
    (hv : s.verdict = frameVerdict s.cfg s.len.toNat ovf f) (ha : avail s = true) :
    s.cfg.h + (s.idx.toNat + 1) * s.cfg.r + 2 ≤ s.len.toNat := by
  obtain ⟨hr, hi⟩ := (avail_iff s).mp ha
  obtain ⟨hlen, hcount, hmost⟩ := frameVerdict_ok ((congrArg Verdict.result hv).symm.trans hr)
  have hslots : s.idx.toNat + 1 ≤ (s.len.toNat - s.cfg.h - 2) / s.cfg.r := by
    have hc : s.count = _ := (congrArg Verdict.count hv).trans hcount
    rw [hc, BitVec.toNat_ofNat] at hi
    have := Nat.mod_le (frameLE f s.cfg.cntOff s.cfg.cntW) (2 ^ 16)
    omega
  have := (Nat.mul_le_mul_right s.cfg.r hslots).trans (Nat.div_mul_le_self _ _)
  omega

/-- `DECODE` of a held frame completes with the registers of the plain-arithmetic reading (R65). -/
theorem execDecode_of_holds {s : State} {f : Nat → Byte} (hwf : s.cfg.wf = true) (h : HoldsFrame s f) :
    execDecode s = .next
      (accept { s.setVerdict (frameVerdict s.cfg s.len.toNat s.ovf f) with phase := .done, idx := 0#16 }) :=
  execDecode_of_validate (validate_of_holds hwf h)

/-! ### What `RDF` reads of a frame (R77 to R81) -/

/-- The raw number of a field, converted, is the field's value as the rows of R78 give it. -/
theorem convertField_frameLE {c : Config} (hwf : c.wf = true) (f : Nat → Byte) (i : Nat) (fld : Field) :
    convertField c fld (frameLE f (slotBase c i + fieldOffset c fld) (fieldWidth c fld)) = frameField c f i fld := by
  have hbyte (b : Byte) : zext16 b.toNat = b.setWidth 16 := BitVec.ofNat_toNat 16 b
  have hzero (b : Byte) : b.toNat = 0 ↔ b = 0#8 := BitVec.toNat_inj (y := 0#8)
  cases fld with
  | x1 | y1 | x2 | y2 => rfl
  | conf | rconf => simp only [convertField, fieldKind, fieldWidth, frameLE_one, hbyte]; rfl
  | facing =>
    simp only [convertField, fieldKind, fieldWidth, frameLE_one, hzero]
    rfl
  | rid =>
    obtain ⟨-, -, -, -, hid⟩ := c.wf_iff.mp hwf
    obtain ⟨-, hw, -⟩ := c.identityOk_iff.mp hid
    simp only [List.mem_cons, List.not_mem_nil, or_false] at hw
    exact sext16_eq_signExtend _ (by omega) (by omega)

/-- A field of a slot that lies inside the held frame reads as its value there, without a fault. -/
theorem fieldValue_of_holds {s : State} {f : Nat → Byte} {i : Nat} (hwf : s.cfg.wf = true) (h : HoldsFrame s f)
    (hslot : s.cfg.h + (i + 1) * s.cfg.r ≤ s.len.toNat) (fld : Field) :
    fieldValue s i fld = .ok (frameField s.cfg f i fld) := by
  have hfit := fieldOffset_add_fieldWidth_le hwf fld
  have hend : slotBase s.cfg i + fieldOffset s.cfg fld + fieldWidth s.cfg fld ≤ s.len.toNat := by
    rw [Nat.add_mul, Nat.one_mul] at hslot
    unfold slotBase
    omega
  rw [fieldValue, fieldRaw, readLE_of_holds h hend, ← convertField_frameLE hwf]
  rfl

/-- `RDF` with a record current whose slot lies inside the held frame answers the field's value (R81). -/
theorem execRdf_of_holds {s : State} {f : Nat → Byte} (hwf : s.cfg.wf = true) (h : HoldsFrame s f)
    (ha : avail s = true) (hslot : s.cfg.h + (s.idx.toNat + 1) * s.cfg.r ≤ s.len.toNat) (fld : Field) :
    execRdf fld s = .next (respond true (frameField s.cfg f s.idx.toNat fld) s) := by
  simp [execRdf, ha, fieldValue_of_holds hwf h hslot, Except.map]

/-! ### No command stops in a state of the invariant -/

/-- The invariant does not see what the host has still to send. -/
theorem State.Inv.withPort {s : State} (h : s.Inv) (p : List HostInput) : ({ s with port := p } : State).Inv where
  cfgWf := h.cfgWf
  bufWf := h.bufWf
  filled := h.filled
  lenCap := h.lenCap
  ovfFull := h.ovfFull
  loadCleared := h.loadCleared
  doneVerdict := fun hp => (validate_congr (by rfl) (by rfl) (by rfl) (by rfl)).trans (h.doneVerdict hp)
  idxBound := h.idxBound

/-- In a state of the invariant with `RESULT = OK` the decode registers are those of the held frame. -/
theorem State.Inv.verdict_of_ok {s : State} (h : s.Inv) (hr : s.result = .ok) {f : Nat → Byte}
    (hf : HoldsFrame s f) : s.verdict = frameVerdict s.cfg s.len.toNat s.ovf f := by
  cases hp : s.phase with
  | load => cases hr.symm.trans (congrArg Verdict.result (h.loadCleared hp))
  | done => exact Except.ok.inj ((h.doneVerdict hp).symm.trans (validate_of_holds h.cfgWf hf))

theorem State.Inv.execPush_answers {s : State} (h : s.Inv) (b : Byte) : ∃ t, execPush b s = .next t := by
  unfold execPush
  split
  · exact ⟨_, rfl⟩
  split
  · exact ⟨_, rfl⟩
  · rename_i hfull
    rw [appendByte, bufWrite, if_pos (lt_of_le_of_ne h.lenCap hfull)]
    exact ⟨_, rfl⟩

theorem State.Inv.execDecode_answers {s : State} (h : s.Inv) : ∃ t, execDecode s = .next t :=
  ⟨_, execDecode_of_holds h.cfgWf (HoldsFrame.of_filled h.filled)⟩

theorem State.Inv.execRdf_answers {s : State} (h : s.Inv) (fld : Field) : ∃ t, execRdf fld s = .next t := by
  cases ha : avail s with
  | false => exact ⟨reject .noFace s, by simp [execRdf, ha]⟩
  | true =>
    have hf := HoldsFrame.of_filled h.filled
    have hslot := slot_end_le (h.verdict_of_ok ((avail_iff s).mp ha).1 hf) ha
    exact ⟨_, execRdf_of_holds h.cfgWf hf ha (by omega) fld⟩

theorem execNext_answers (s : State) : ∃ t, execNext s = .next t := by
  unfold execNext
  split <;> exact ⟨_, rfl⟩

/-- Every command completes in a state of the invariant: only `PUSH`, `DECODE` and `RDF` touch the buffer. -/
theorem State.Inv.exec_answers {s : State} (h : s.Inv) (i : Instr) : ∃ t, exec i s = .next t := by
  cases i with
  | nop | clear | rewind | rdreg => exact ⟨_, rfl⟩
  | push b => exact h.execPush_answers b
  | decode => exact h.execDecode_answers
  | next => exact execNext_answers s
  | rdf fld => exact h.execRdf_answers fld

theorem State.Inv.runWord_answers {s : State} (h : s.Inv) (w : Word) : ∃ t, runWord w s = .next t := by
  unfold runWord
  split
  · exact h.exec_answers _
  · exact ⟨_, rfl⟩

theorem State.Inv.takeInput_answers {s : State} (h : s.Inv) : ∃ t, takeInput s = .next t := by
  unfold takeInput
  split
  · exact ⟨_, rfl⟩
  · exact ⟨_, rfl⟩
  · exact (h.withPort _).runWord_answers _

/-! ### Iteration (R82, R85) -/

theorem decode_next_word : Sys2Proof.decode 0x0400#16 = .ok .next := by decide

theorem execNext_of_not_avail {s : State} (ha : avail s = false) : execNext s = .next (reject .iterEnd s) := by
  simp [execNext, ha]

/-- Below `COUNT` the index never wraps. -/
theorem idx_succ_toNat {s : State} (h : s.idx.toNat < s.count.toNat) : (s.idx + 1#16).toNat = s.idx.toNat + 1 :=
  BitVec.toNat_add_of_lt (lt_of_le_of_lt (Nat.succ_le_of_lt h) s.count.isLt)

/-- A step that takes a `NEXT` word with a record current. -/
theorem step_next_word {s : State} {words : List Word} (hwf : s.cfg.wf = true) (ha : avail s = true) :
    step (sending (0x0400#16 :: words) s) = .next (sending words (accept { s with idx := s.idx + 1#16 })) := by
  have ha' : avail (sending words s) = true := ha
  rw [step_command (s := sending (0x0400#16 :: words) s) hwf rfl, runWord, decode_next_word]
  exact if_pos ha'

/-- The state `k` accepted `NEXT`s leave, the latest of which gave the response `r`, with nothing more at the port. -/
def afterNexts (k : Nat) (r : Option Response) (s : State) : State :=
  { s with idx := s.idx + BitVec.ofNat 16 k, port := [], resp := r }

/-- One `NEXT` and then `k` are `k + 1`. -/
theorem afterNexts_succ (k : Nat) (r : Option Response) (s : State) :
    afterNexts k r (accept { s with idx := s.idx + 1#16 }) = afterNexts (k + 1) r s := by
  have hidx : s.idx + 1#16 + BitVec.ofNat 16 k = s.idx + BitVec.ofNat 16 (k + 1) := by
    rw [BitVec.add_assoc, BitVec.ofNat_add, BitVec.add_comm 1#16]
  simp only [afterNexts, ← hidx]
  rfl

/-- Words of `NEXT` that do not pass `COUNT` are all accepted. -/
theorem stepMany_next_words (k : Nat) : ∀ s : State, s.cfg.wf = true → s.result = .ok →
    s.idx.toNat + k ≤ s.count.toNat →
    ∃ r, stepMany k (sending (List.replicate k 0x0400#16) s) = .next (afterNexts k r s) := by
  induction k with
  | zero => exact fun s _ _ _ => ⟨s.resp, by simp [stepMany, sending, afterNexts]⟩
  | succ k ih =>
    intro s hwf hr hk
    have hcur : s.idx.toNat < s.count.toNat := by omega
    have hidx := idx_succ_toNat hcur
    obtain ⟨r, hrest⟩ := ih (accept { s with idx := s.idx + 1#16 }) hwf hr
      (by simp only [accept_idx, accept_count]; omega)
    refine ⟨r, ?_⟩
    rw [List.replicate_succ, stepMany, step_next_word hwf ((avail_iff s).mpr ⟨hr, hcur⟩), ← afterNexts_succ]
    exact hrest

/-! ### The obligations -/

/-- Settles O48: the guard passes, and in a state of the invariant every input the host can present completes. -/
theorem noStepFromInvStops : Obligations.NoStepFromInvStops := by
  intro s h
  rw [step_of_wf h.cfgWf]
  exact h.takeInput_answers

/-- Settles O12: the five groups of the check are the ranges of R5 in another order, and `step` asks the check first. -/
theorem illFormedConfigurationHasNoStep : Obligations.IllFormedConfigurationHasNoStep := by
  refine fun s => ⟨?_, step_of_not_wf⟩
  simp only [Config.wf_iff, Config.capacityOk_iff, Config.countFieldOk_iff, Config.recordOk_iff, Config.boxOk_iff,
    Config.identityOk_iff]
  tauto

/-- Settles O36: the `NEXT`s reach slot `k` with the decoded frame unchanged, so `RDF` there reads slot `k` while
`k < COUNT`, and at `k = COUNT` no record is current. -/
theorem iterationYieldsTheSlotsInOrder : Obligations.IterationYieldsTheSlotsInOrder := by
  intro s t f k hwf hf ht hok hk
  have hleft := Host.Outcome.next.inj (ht.symm.trans (execDecode_of_holds hwf hf))
  have hcfg : t.cfg = s.cfg := by rw [hleft]; rfl
  have hzero : t.idx = 0#16 := by rw [hleft]; rfl
  have hframe : HoldsFrame t f := by rw [hleft]; exact hf
  have hv : t.verdict = frameVerdict t.cfg t.len.toNat s.ovf f := by rw [hleft]; rfl
  rw [← hcfg] at hwf ⊢
  obtain ⟨r, hrun⟩ := stepMany_next_words k t hwf hok (by simpa [hzero] using hk)
  have hidx : (afterNexts k r t).idx.toNat = k := by
    rw [afterNexts, hzero, BitVec.zero_add, BitVec.toNat_ofNat]
    exact Nat.mod_eq_of_lt (lt_of_le_of_lt hk t.count.isLt)
  have havail : avail (afterNexts k r t) = true ↔ k < t.count.toNat := by
    rw [avail_iff, hidx]
    exact and_iff_right hok
  refine ⟨_, hrun, hidx, rfl, havail, fun hlt fld => ?_, fun hend => ?_⟩
  · have hslot := slot_end_le (s := afterNexts k r t) hv (havail.mpr hlt)
    have hread := execRdf_of_holds (s := afterNexts k r t) hwf hframe (havail.mpr hlt) (by omega) fld
    rwa [hidx] at hread
  · have hnone : avail (afterNexts k r t) = false := by
      rw [Bool.eq_false_iff, ne_eq, havail]
      omega
    exact ⟨_, execNext_of_not_avail hnone, ⟨_, reject_resp _ _⟩, rfl, rfl⟩

/-- Settles O37, as two widths of `sext16_eq_signExtend`; at 16 bits the extension adds nothing. -/
theorem signExtensionIsTwosComplement : Obligations.SignExtensionIsTwosComplement := by
  intro v
  refine ⟨sext16_eq_signExtend v (by decide) (by decide), ?_⟩
  rw [sext16_eq_signExtend v (by decide) le_rfl, BitVec.signExtend_eq]

/-- Settles O11, by evaluating the one configuration. -/
theorem resetBlockIsTheDefaultOne : Obligations.ResetBlockIsTheDefaultOne := by
  refine ⟨rfl, rfl, rfl, ?_⟩
  decide

end Sys2Proof.Machine

/-! ## State (10_state.md)

How the invariant survives each update of the state, and with it every step; what the decode registers hold in a state
of the invariant; and the registers and flags: the constants, `STATUS`, `OVF` and `ILL`. -/

namespace Sys2Proof.Machine

/-! ### Updates that keep the invariant -/

/-- The invariant sees the configuration, the frame, `OVF`, `PHASE` and the decode registers, and of `IDX` its bound. -/
theorem State.Inv.congr {s t : State} (h : s.Inv) (hcfg : t.cfg = s.cfg) (hbuf : t.buf = s.buf) (hlen : t.len = s.len)
    (hovf : t.ovf = s.ovf) (hphase : t.phase = s.phase) (hv : t.verdict = s.verdict)
    (hidx : t.idx.toNat ≤ s.count.toNat) : t.Inv where
  cfgWf := hcfg ▸ h.cfgWf
  bufWf := hbuf ▸ h.bufWf
  filled := by rw [hbuf, hlen]; exact h.filled
  lenCap := by rw [hlen, hcfg]; exact h.lenCap
  ovfFull := by rw [hovf, hlen, hcfg]; exact h.ovfFull
  loadCleared := by rw [hphase, hv]; exact h.loadCleared
  doneVerdict := by rw [hphase, hv, validate_congr hcfg hbuf hlen hovf]; exact h.doneVerdict
  idxBound := hidx.trans (congrArg (fun v => v.count.toNat) hv).ge

theorem idle_inv {s : State} (h : s.Inv) : (idle s).Inv := h.congr rfl rfl rfl rfl rfl rfl h.idxBound

theorem respond_inv {s : State} (h : s.Inv) (ack : Bool) (data : Word) : (respond ack data s).Inv :=
  h.congr rfl rfl rfl rfl rfl rfl h.idxBound

theorem accept_inv {s : State} (h : s.Inv) : (accept s).Inv := h.congr rfl rfl rfl rfl rfl rfl h.idxBound

theorem reject_inv {s : State} (h : s.Inv) (r : Reject) : (reject r s).Inv := h.congr rfl rfl rfl rfl rfl rfl h.idxBound

/-- `IDX` may be any number up to `COUNT` (R24). -/
theorem State.Inv.withIdx {s : State} (h : s.Inv) {i : Word} (hi : i.toNat ≤ s.count.toNat) :
    ({ s with idx := i } : State).Inv :=
  h.congr rfl rfl rfl rfl rfl rfl hi

theorem resetFor_inv {c : Config} (h : c.wf = true) : (State.resetFor c).Inv where
  cfgWf := h
  bufWf := rfl
  filled := rfl
  lenCap := Nat.zero_le _
  ovfFull := nofun
  loadCleared := fun _ => rfl
  doneVerdict := nofun
  idxBound := le_rfl

theorem clearState_inv {s : State} (h : s.Inv) : (clearState s).Inv :=
  (resetFor_inv h.cfgWf).withPort s.port

/-- `OVF` may be set where the buffer is full and not yet frozen (R19, R66). -/
theorem State.Inv.withOvf {s : State} (h : s.Inv) (hp : s.phase = .load) (hfull : s.len.toNat = s.cfg.ncap) :
    ({ s with ovf := true } : State).Inv where
  cfgWf := h.cfgWf
  bufWf := h.bufWf
  filled := h.filled
  lenCap := h.lenCap
  ovfFull := fun _ => hfull
  loadCleared := h.loadCleared
  doneVerdict := fun hd => nomatch hp.symm.trans hd
  idxBound := h.idxBound

/-- Below `NCAP` the length never wraps, since `NCAP ≤ 65535` (R5). -/
theorem len_succ_toNat {s : State} (hwf : s.cfg.wf = true) (hlen : s.len.toNat < s.cfg.ncap) :
    (s.len + 1#16).toNat = s.len.toNat + 1 := by
  obtain ⟨hcap, -⟩ := s.cfg.wf_iff.mp hwf
  obtain ⟨-, hmax⟩ := s.cfg.capacityOk_iff.mp hcap
  exact BitVec.toNat_add_of_lt (show s.len.toNat + 1 < 2 ^ 16 by omega)

/-- A byte appended to a buffer that is not full and not frozen (R62). -/
theorem State.Inv.append {s : State} (h : s.Inv) (hp : s.phase = .load) (hlen : s.len.toNat < s.cfg.ncap) (b : Byte) :
    ({ s with buf := Memory.write s.buf s.len.toNat b, len := s.len + 1#16 } : State).Inv where
  cfgWf := h.cfgWf
  bufWf := Memory.write_wf _ b h.bufWf
  filled := by
    rw [len_succ_toNat h.cfgWf hlen]
    exact Memory.filled_write b h.filled
  lenCap := by
    rw [len_succ_toNat h.cfgWf hlen]
    exact hlen
  ovfFull := fun ho => absurd (h.ovfFull ho) hlen.ne
  loadCleared := h.loadCleared
  doneVerdict := fun hd => nomatch hp.symm.trans hd
  idxBound := h.idxBound

/-- The buffer frozen with the registers `DECODE` computes of it (R65). -/
theorem State.Inv.freeze {s : State} (h : s.Inv) {v : Verdict} (hv : validate s = .ok v) :
    ({ s.setVerdict v with phase := .done, idx := 0#16 } : State).Inv where
  cfgWf := h.cfgWf
  bufWf := h.bufWf
  filled := h.filled
  lenCap := h.lenCap
  ovfFull := h.ovfFull
  loadCleared := nofun
  doneVerdict := fun _ => (validate_congr (by rfl) (by rfl) (by rfl) (by rfl)).trans hv
  idxBound := Nat.zero_le _

/-! ### Commands and steps keep the invariant -/

theorem execPush_inv {s t : State} (h : s.Inv) {b : Byte} (ht : execPush b s = .next t) : t.Inv := by
  obtain ⟨-, rfl⟩ | ⟨hp, hfull, rfl⟩ | ⟨hp, hlen, rfl⟩ := execPush_cases ht
  · exact reject_inv h _
  · exact reject_inv (h.withOvf hp hfull) _
  · exact accept_inv (h.append hp hlen b)

theorem execDecode_inv {s t : State} (h : s.Inv) (ht : execDecode s = .next t) : t.Inv := by
  obtain ⟨v, hv, rfl⟩ := execDecode_next ht
  exact accept_inv (h.freeze hv)

theorem execNext_inv {s t : State} (h : s.Inv) (ht : execNext s = .next t) : t.Inv := by
  obtain ⟨-, rfl⟩ | ⟨ha, rfl⟩ := execNext_cases ht
  · exact reject_inv h _
  · obtain ⟨-, hlt⟩ := (avail_iff s).mp ha
    exact accept_inv (h.withIdx (by rw [idx_succ_toNat hlt]; exact hlt))

theorem execRdf_inv {s t : State} (h : s.Inv) {f : Field} (ht : execRdf f s = .next t) : t.Inv := by
  obtain ⟨-, rfl⟩ | ⟨-, v, -, rfl⟩ := execRdf_cases ht
  · exact reject_inv h _
  · exact respond_inv h _ _

theorem exec_inv {s t : State} (h : s.Inv) {i : Instr} (ht : exec i s = .next t) : t.Inv := by
  obtain ⟨-, rfl⟩ | ⟨-, rfl⟩ | ⟨b, -, hpush⟩ | ⟨-, hdecode⟩ | ⟨-, hnext⟩ | ⟨-, rfl⟩ | ⟨f, -, hrdf⟩ | ⟨g, -, rfl⟩ :=
    exec_cases ht
  · exact accept_inv h
  · exact accept_inv (clearState_inv h)
  · exact execPush_inv h hpush
  · exact execDecode_inv h hdecode
  · exact execNext_inv h hnext
  · exact accept_inv (h.withIdx (Nat.zero_le _))
  · exact execRdf_inv h hrdf
  · exact respond_inv h _ _

theorem step_inv {s t : State} (h : s.Inv) (ht : step s = .next t) : t.Inv := by
  obtain ⟨-, ⟨-, rfl⟩ | ⟨rest, -, rfl⟩ | ⟨w, rest, i, -, -, hexec⟩ | ⟨w, rest, r, -, -, rfl⟩⟩ := step_cases ht
  · exact idle_inv h
  · exact clearState_inv (h.withPort rest)
  · exact exec_inv (h.withPort rest) hexec
  · exact reject_inv (h.withPort rest) _

/-! ### What the decode registers hold -/

/-- The registers of a frame are those of a failed stage, with `COUNT` 0, or those of an `OK` frame (R65 to R72). -/
theorem frameVerdict_cases (c : Config) (len : Nat) (ovf : Bool) (f : Nat → Byte) :
    ((frameVerdict c len ovf f).result ∉ [.none, .ok] ∧ (frameVerdict c len ovf f).count = 0) ∨
    (ovf = false ∧ c.h + 2 ≤ len ∧ ∃ (sum : Word) (raw : Nat), raw ≤ min c.m ((len - c.h - 2) / c.r) ∧
      frameVerdict c len ovf f = ⟨.ok, BitVec.ofNat 16 raw, BitVec.ofNat 16 raw, sum, sum,
        BitVec.ofNat 16 (min c.m ((len - c.h - 2) / c.r))⟩) := by
  dsimp only [frameVerdict]
  split
  · exact .inl ⟨by decide, rfl⟩
  split
  · exact .inl ⟨by decide, rfl⟩
  split
  · exact .inl ⟨by simp, rfl⟩
  split
  · exact .inl ⟨by simp, rfl⟩
  · rename_i hovf htrunc hsum hmany
    rw [ne_eq, not_not] at hsum
    exact .inr ⟨by simpa using hovf, by omega, _, _, not_lt.mp hmany, by rw [hsum]⟩

/-- In a frozen state of the invariant the decode registers are those of the held frame. -/
theorem State.Inv.verdict_of_done {s : State} (h : s.Inv) (hp : s.phase = .done) {f : Nat → Byte}
    (hf : HoldsFrame s f) : s.verdict = frameVerdict s.cfg s.len.toNat s.ovf f :=
  Except.ok.inj ((h.doneVerdict hp).symm.trans (validate_of_holds h.cfgWf hf))

/-- `MAXF` and every count up to it fit a 16-bit register, since `M ≤ 65535` (R5). -/
theorem toNat_ofNat_of_le_maxFaces {c : Config} (hwf : c.wf = true) {n q : Nat} (hn : n ≤ min c.m q) :
    (BitVec.ofNat 16 n).toNat = n := by
  obtain ⟨-, -, hrec, -⟩ := c.wf_iff.mp hwf
  obtain ⟨-, -, hm⟩ := c.recordOk_iff.mp hrec
  rw [BitVec.toNat_ofNat, Nat.mod_eq_of_lt (by omega)]

theorem State.Inv.registers_of_load {s : State} (h : s.Inv) (hp : s.phase = .load) :
    s.result = .none ∧ s.count = 0 :=
  ⟨congrArg Verdict.result (h.loadCleared hp), congrArg Verdict.count (h.loadCleared hp)⟩

/-- The two kinds of frozen states: a failed stage, or an `OK` frame with its registers. -/
theorem State.Inv.registers_of_done {s : State} (h : s.Inv) (hp : s.phase = .done) :
    (s.result ∉ [.none, .ok] ∧ s.count = 0) ∨
    (s.result = .ok ∧ s.ovf = false ∧ s.cfg.h + 2 ≤ s.len.toNat ∧ s.calcSum = s.expect ∧ s.count = s.rawCount ∧
      s.count.toNat ≤ s.maxf.toNat ∧
      s.maxf.toNat = min s.cfg.m ((s.len.toNat - s.cfg.h - 2) / s.cfg.r)) := by
  have hv := h.verdict_of_done hp (HoldsFrame.of_filled h.filled)
  obtain ⟨hr, hc⟩ | ⟨hovf, hlen, sum, raw, hraw, hok⟩ := frameVerdict_cases s.cfg s.len.toNat s.ovf _
  · rw [← hv] at hr hc
    exact .inl ⟨hr, hc⟩
  · obtain ⟨hresult, hcount, hrawCount, hcalc, hexpect, hmaxf⟩ := Verdict.mk.inj (hv.trans hok)
    refine .inr ⟨hresult, hovf, hlen, hcalc.trans hexpect.symm, hcount.trans hrawCount.symm, ?_, ?_⟩
    · rw [hcount, hmaxf, toNat_ofNat_of_le_maxFaces h.cfgWf hraw, toNat_ofNat_of_le_maxFaces h.cfgWf le_rfl]
      exact hraw
    · rw [hmaxf, toNat_ofNat_of_le_maxFaces h.cfgWf le_rfl]

end Sys2Proof.Machine

namespace Sys2Proof

/-! ### Which words spell a command (R49, R57) -/

@[simp] theorem opcodeOf_append (op x : Byte) : opcodeOf (op ++ x) = op := BitVec.extractLsb'_append_eq_left

@[simp] theorem operandOf_append (op x : Byte) : operandOf (op ++ x) = x := BitVec.extractLsb'_append_eq_right

theorem opcodeOf_toNat (w : Word) : (opcodeOf w).toNat = w.toNat / 256 := by
  have := w.isLt
  rw [opcodeOf, BitVec.extractLsb'_toNat, Nat.shiftRight_eq_div_pow]
  omega

theorem operandOf_toNat (w : Word) : (operandOf w).toNat = w.toNat % 256 := by
  rw [operandOf, BitVec.extractLsb'_toNat, Nat.shiftRight_zero]

theorem Field.exists_ofSelect_iff (n : Nat) : (∃ f, Field.ofSelect n = some f) ↔ n ≤ 7 := by
  unfold Field.ofSelect
  split <;> simp_all
  omega

theorem Reg.exists_ofIndex_iff (n : Nat) : (∃ g, Reg.ofIndex n = some g) ↔ n ≤ 0x0E := by
  unfold Reg.ofIndex
  split <;> simp_all
  omega

theorem exists_decodeZ_iff (x : Byte) (i : Instr) : (∃ j, decodeZ x i = .ok j) ↔ x.toNat = 0 := by
  have hzero : x.toNat = 0 ↔ x = 0#8 := BitVec.toNat_inj (y := 0#8)
  rw [hzero, decodeZ]
  split <;> simp_all

/-- The high nibble is 0 and the low one at most 7 exactly when the byte is at most 7 (R53). -/
theorem exists_decodeF_iff (x : Byte) : (∃ j, decodeF x = .ok j) ↔ x.toNat ≤ 7 := by
  have hhigh : x.extractLsb' 4 4 = 0#4 ↔ x.toNat < 16 := by
    have := x.isLt
    rw [← BitVec.toNat_inj, BitVec.extractLsb'_toNat, Nat.shiftRight_eq_div_pow, BitVec.toNat_ofNat]
    omega
  have hlow : (∃ f, Field.ofSelect (x.extractLsb' 0 4).toNat = some f) ↔ x.toNat % 16 ≤ 7 := by
    rw [Field.exists_ofSelect_iff, BitVec.extractLsb'_toNat, Nat.shiftRight_zero]
  unfold decodeF
  split
  · rename_i hx
    rw [hhigh] at hx
    rw [Nat.mod_eq_of_lt hx] at hlow
    rw [← hlow]
    split <;> simp_all
  · rename_i hx
    rw [hhigh] at hx
    simp only [reduceCtorEq, exists_false, false_iff]
    omega

theorem exists_decodeG_iff (x : Byte) : (∃ j, decodeG x = .ok j) ↔ x.toNat ≤ 0x0E := by
  rw [← Reg.exists_ofIndex_iff, decodeG]
  split <;> simp_all

/-- The decoder answers a command for exactly the words of the table of R50. -/
theorem exists_decode_iff_spellsCommand (w : Word) : (∃ i, decode w = .ok i) ↔ Machine.spellsCommand w = true := by
  simp only [Machine.spellsCommand, decide_eq_true_eq, ← opcodeOf_toNat, ← operandOf_toNat]
  unfold decode
  split <;> simp_all [exists_decodeZ_iff, exists_decodeF_iff, exists_decodeG_iff]

theorem spellsCommand_of_decode_ok {w : Word} {i : Instr} (h : decode w = .ok i) : Machine.spellsCommand w = true :=
  (exists_decode_iff_spellsCommand w).mp ⟨i, h⟩

theorem spellsCommand_of_decode_error {w : Word} {r : DecodeReject} (h : decode w = .error r) :
    Machine.spellsCommand w = false := by
  rw [← Bool.not_eq_true, ← exists_decode_iff_spellsCommand]
  rintro ⟨i, hi⟩
  cases h.symm.trans hi

/-- Opcode 0x07 is the row of `RDREG`. -/
theorem decode_rdreg_word (x : Byte) : decode (0x07#8 ++ x) = decodeG x := by
  rw [decode, opcodeOf_append, operandOf_append]
  rfl

/-- An index the register map does not name is refused (R54). -/
theorem decodeG_of_reserved {x : Byte} (h : 0x0F ≤ x.toNat) : decodeG x = .error .registerIndex := by
  unfold decodeG
  split
  · rename_i g hg
    have := (Reg.exists_ofIndex_iff x.toNat).mp ⟨g, hg⟩
    omega
  · rfl

end Sys2Proof

namespace Sys2Proof.Machine

/-! ### The bits of `STATUS` (R29) -/

/-- Every bit of `STATUS`, by its number. -/
theorem status_getLsbD (s : State) (k : Nat) :
    (status s).getLsbD k =
      if k < 3 then s.result.code.getLsbD k
      else if k = 3 then decide (s.phase = .done)
      else if k = 4 then s.ovf
      else if k = 5 then s.ill
      else if k = 6 then avail s
      else false := by
  have hphase : s.phase.bit.getLsbD 0 = decide (s.phase = .done) := by cases s.phase <;> rfl
  simp only [status, BitVec.getLsbD_append]
  rcases lt_or_ge k 3 with hk | hk
  · simp only [if_pos hk]
  · obtain ⟨j, rfl⟩ := Nat.exists_eq_add_of_le' hk
    match j with
    | 0 => exact hphase
    | 1 | 2 | 3 => simp
    | n + 4 => simp

/-- `ILL` is bit 5 of `STATUS` and nothing else of it (R20, R29). -/
theorem status_withIll_getLsbD (s : State) (b : Bool) {k : Nat} (hk : k ≠ 5) :
    (status { s with ill := b }).getLsbD k = (status s).getLsbD k := by
  simp only [status_getLsbD, if_neg hk]
  rfl

/-! ### What a command does to the configuration and the flags -/

theorem exec_cfg {i : Instr} {s t : State} (h : exec i s = .next t) : t.cfg = s.cfg := by
  obtain ⟨-, rfl⟩ | ⟨-, rfl⟩ | ⟨b, -, hpush⟩ | ⟨-, hdecode⟩ | ⟨-, hnext⟩ | ⟨-, rfl⟩ | ⟨f, -, hrdf⟩ | ⟨g, -, rfl⟩ :=
    exec_cases h
  · rfl
  · rfl
  · obtain ⟨-, rfl⟩ | ⟨-, -, rfl⟩ | ⟨-, -, rfl⟩ := execPush_cases hpush <;> rfl
  · obtain ⟨v, -, rfl⟩ := execDecode_next hdecode
    rfl
  · obtain ⟨-, rfl⟩ | ⟨-, rfl⟩ := execNext_cases hnext <;> rfl
  · rfl
  · obtain ⟨-, rfl⟩ | ⟨-, v, -, rfl⟩ := execRdf_cases hrdf <;> rfl
  · rfl

theorem step_cfg {s t : State} (h : step s = .next t) : t.cfg = s.cfg := by
  obtain ⟨-, ⟨-, rfl⟩ | ⟨rest, -, rfl⟩ | ⟨w, rest, i, -, -, hexec⟩ | ⟨w, rest, r, -, -, rfl⟩⟩ := step_cases h
  · rfl
  · rfl
  · exact (exec_cfg hexec).trans rfl
  · rfl

/-- `OVF` after a command: `CLEAR` clears it, a `PUSH` to a full buffer in `LOAD` sets it (R19). -/
theorem exec_ovf {i : Instr} {s t : State} (h : exec i s = .next t) :
    t.ovf =
      if i = .clear then false
      else s.ovf || decide ((∃ b, i = .push b) ∧ s.phase = .load ∧ s.len.toNat = s.cfg.ncap) := by
  obtain ⟨rfl, rfl⟩ | ⟨rfl, rfl⟩ | ⟨b, rfl, hpush⟩ | ⟨rfl, hdecode⟩ | ⟨rfl, hnext⟩ | ⟨rfl, rfl⟩ | ⟨f, rfl, hrdf⟩ |
    ⟨g, rfl, rfl⟩ := exec_cases h
  · simp
  · simp
  · obtain ⟨hp, rfl⟩ | ⟨hp, hfull, rfl⟩ | ⟨hp, hlen, rfl⟩ := execPush_cases hpush
    · simp [hp]
    · simp [hp, hfull]
    · simp [hp, hlen.ne]
  · obtain ⟨v, -, rfl⟩ := execDecode_next hdecode
    simp
  · obtain ⟨-, rfl⟩ | ⟨-, rfl⟩ := execNext_cases hnext <;> simp
  · simp
  · obtain ⟨-, rfl⟩ | ⟨-, v, -, rfl⟩ := execRdf_cases hrdf <;> simp
  · simp

/-- `ILL` after a command: `CLEAR` clears it, and no legal command sets it (R20). -/
theorem exec_ill {i : Instr} {s t : State} (h : exec i s = .next t) :
    t.ill = if i = .clear then false else s.ill := by
  obtain ⟨rfl, rfl⟩ | ⟨rfl, rfl⟩ | ⟨b, rfl, hpush⟩ | ⟨rfl, hdecode⟩ | ⟨rfl, hnext⟩ | ⟨rfl, rfl⟩ | ⟨f, rfl, hrdf⟩ |
    ⟨g, rfl, rfl⟩ := exec_cases h
  · rfl
  · rfl
  · obtain ⟨-, rfl⟩ | ⟨-, -, rfl⟩ | ⟨-, -, rfl⟩ := execPush_cases hpush <;> simp
  · obtain ⟨v, -, rfl⟩ := execDecode_next hdecode
    rfl
  · obtain ⟨-, rfl⟩ | ⟨-, rfl⟩ := execNext_cases hnext <;> simp
  · rfl
  · obtain ⟨-, rfl⟩ | ⟨-, v, -, rfl⟩ := execRdf_cases hrdf <;> simp
  · rfl

theorem validate_of_ovf {s : State} (h : s.ovf = true) : validate s = .ok (Verdict.only .overrun) := by
  simp [validate, h]

/-! ### Each command with its condition given -/

theorem execPush_of_done {s : State} (hp : s.phase = .done) (b : Byte) :
    execPush b s = .next (reject .frozen s) := by
  simp [execPush, hp]

theorem execPush_of_full {s : State} (hp : s.phase = .load) (hfull : s.len.toNat = s.cfg.ncap) (b : Byte) :
    execPush b s = .next (reject .overrun { s with ovf := true }) := by
  simp [execPush, hp, hfull]

theorem execPush_of_room {s : State} (hp : s.phase = .load) (hlen : s.len.toNat < s.cfg.ncap) (b : Byte) :
    execPush b s =
      .next (accept { s with buf := Memory.write s.buf s.len.toNat b, len := s.len + 1#16 }) := by
  rw [execPush, if_neg (by simp [hp]), if_neg hlen.ne, appendByte, bufWrite, if_pos hlen]
  rfl

theorem execRdf_of_not_avail {s : State} (ha : avail s = false) (f : Field) :
    execRdf f s = .next (reject .noFace s) := by
  simp [execRdf, ha]

theorem execRdf_of_value {s : State} {f : Field} {v : Word} (ha : avail s = true)
    (hv : fieldValue s s.idx.toNat f = .ok v) : execRdf f s = .next (respond true v s) := by
  simp [execRdf, ha, hv, Except.map]

theorem execNext_of_avail {s : State} (ha : avail s = true) :
    execNext s = .next (accept { s with idx := s.idx + 1#16 }) := by
  simp [execNext, ha]

/-! ### What the iterator commands leave unchanged (R81, R82) -/

/-- A rejection for any reason but an illegal word changes `REJ` alone (R87). -/
theorem reject_of_ne_illegal {r : Reject} (hr : r ≠ .illegal) (s : State) :
    reject r s = { s with rej := r, resp := (reject r s).resp } := by
  simp [reject, respond, hr]

theorem not_acked_reject (r : Reject) (s : State) : ¬ acked (reject r s) := by
  rintro ⟨data, h⟩
  cases h

theorem not_rejected_accept (s : State) : ¬ rejected (accept s) := by
  rintro ⟨data, h⟩
  cases h

theorem execRdf_frame {f : Field} {s t : State} (h : execRdf f s = .next t) :
    t = { s with rej := t.rej, resp := t.resp } ∧ (acked t → t.rej = s.rej) := by
  obtain ⟨-, rfl⟩ | ⟨-, v, -, rfl⟩ := execRdf_cases h
  · exact ⟨reject_of_ne_illegal (by decide) s, fun ha => absurd ha (not_acked_reject _ s)⟩
  · exact ⟨rfl, fun _ => rfl⟩

theorem execNext_frame {s t : State} (h : execNext s = .next t) :
    t = { s with idx := t.idx, rej := t.rej, resp := t.resp } ∧ (acked t → t.rej = s.rej) ∧
      (rejected t → t.idx = s.idx) := by
  obtain ⟨-, rfl⟩ | ⟨-, rfl⟩ := execNext_cases h
  · exact ⟨reject_of_ne_illegal (by decide) s, fun ha => absurd ha (not_acked_reject _ s), fun _ => rfl⟩
  · exact ⟨rfl, fun _ => rfl, fun hr => absurd hr (not_rejected_accept _)⟩

/-- A field reads the configuration, the buffer and `LEN` only. -/
theorem fieldValue_congr {s t : State} (hc : s.cfg = t.cfg) (hb : s.buf = t.buf) (hl : s.len = t.len) (i : Nat)
    (f : Field) : fieldValue s i f = fieldValue t i f := by
  simp [fieldValue, fieldRaw, hc, readLE_congr hb hl]

/-- The register map but for `STATUS` does not see `ILL`. -/
theorem regValue_withIll (s : State) (b : Bool) {g : Reg} (hg : g ≠ .status) :
    regValue { s with ill := b } g = regValue s g := by
  cases g with
  | status => exact absurd rfl hg
  | len | count | rawCount | idx | calcSum | expect | maxf | rej | cfgNcap | cfgH | cfgR | cfgM | id | version => rfl

/-! ### `ILL` has no other effect on a command (R20) -/

/-- What one command leaves from two states that differ in `ILL` only: the same but for `ILL`, with the same `ack`, and
with data that agree but for the `ILL` bit of `STATUS`. -/
def AgreeButIll (i : Instr) (t u : State) : Prop :=
  ∃ ack v v', { u with ill := t.ill, resp := t.resp } = t ∧ t.resp = some ⟨ack, v⟩ ∧ u.resp = some ⟨ack, v'⟩ ∧
    (∀ k, k ≠ 5 → v'.getLsbD k = v.getLsbD k) ∧
    (∀ f, i = .rdf f → ack = true → v' = v) ∧ (∀ g, i = .rdreg g → g ≠ .status → v' = v)

theorem agreeButIll_accept {i : Instr} (hf : ∀ f, i ≠ .rdf f) (hg : ∀ g, i ≠ .rdreg g) (s : State) (b : Bool) :
    AgreeButIll i (accept s) (accept { s with ill := b }) :=
  ⟨true, _, _, rfl, rfl, rfl, fun _ hk => status_withIll_getLsbD s b hk, fun f h => absurd h (hf f),
    fun g h => absurd h (hg g)⟩

theorem agreeButIll_reject {i : Instr} (hg : ∀ g, i ≠ .rdreg g) (r : Reject) (s : State) (b : Bool) :
    AgreeButIll i (reject r s) (reject r { s with ill := b }) :=
  ⟨false, _, _, rfl, rfl, rfl, fun _ hk => status_withIll_getLsbD (reject r s) (b || decide (r = .illegal)) hk,
    fun _ _ => nofun, fun g h => absurd h (hg g)⟩

theorem agreeButIll_rdf (f : Field) (v : Word) (s : State) (b : Bool) :
    AgreeButIll (.rdf f) (respond true v s) (respond true v { s with ill := b }) :=
  ⟨true, v, v, rfl, rfl, rfl, fun _ _ => rfl, fun _ _ _ => rfl, nofun⟩

theorem agreeButIll_rdreg (g : Reg) (s : State) (b : Bool) :
    AgreeButIll (.rdreg g) (respond true (regValue s g) s)
      (respond true (regValue { s with ill := b } g) { s with ill := b }) := by
  refine ⟨true, _, _, rfl, rfl, rfl, fun k hk => ?_, nofun, ?_⟩
  · by_cases hg : g = .status
    · rw [hg]
      exact status_withIll_getLsbD s b hk
    · rw [regValue_withIll s b hg]
  · rintro _ ⟨⟩ hg
    exact regValue_withIll s b hg

theorem execPush_withIll {x : Byte} {s t : State} (h : execPush x s = .next t) (b : Bool) :
    ∃ u, execPush x { s with ill := b } = .next u ∧ AgreeButIll (.push x) t u := by
  obtain ⟨hp, rfl⟩ | ⟨hp, hfull, rfl⟩ | ⟨hp, hlen, rfl⟩ := execPush_cases h
  · exact ⟨_, execPush_of_done (s := { s with ill := b }) hp x, agreeButIll_reject (i := .push x) nofun _ s b⟩
  · exact ⟨_, execPush_of_full (s := { s with ill := b }) hp hfull x,
      agreeButIll_reject (i := .push x) nofun _ { s with ovf := true } b⟩
  · exact ⟨_, execPush_of_room (s := { s with ill := b }) hp hlen x,
      agreeButIll_accept (i := .push x) nofun nofun
        { s with buf := Memory.write s.buf s.len.toNat x, len := s.len + 1#16 } b⟩

theorem execDecode_withIll {s t : State} (h : execDecode s = .next t) (b : Bool) :
    ∃ u, execDecode { s with ill := b } = .next u ∧ AgreeButIll .decode t u := by
  obtain ⟨v, hv, rfl⟩ := execDecode_next h
  have hv' : validate { s with ill := b } = .ok v := (validate_congr (by rfl) (by rfl) (by rfl) (by rfl)).trans hv
  exact ⟨_, execDecode_of_validate hv',
    agreeButIll_accept (i := .decode) nofun nofun { s.setVerdict v with phase := .done, idx := 0#16 } b⟩

theorem execNext_withIll {s t : State} (h : execNext s = .next t) (b : Bool) :
    ∃ u, execNext { s with ill := b } = .next u ∧ AgreeButIll .next t u := by
  obtain ⟨ha, rfl⟩ | ⟨ha, rfl⟩ := execNext_cases h
  · exact ⟨_, execNext_of_not_avail (s := { s with ill := b }) ha, agreeButIll_reject (i := .next) nofun _ s b⟩
  · exact ⟨_, execNext_of_avail (s := { s with ill := b }) ha,
      agreeButIll_accept (i := .next) nofun nofun { s with idx := s.idx + 1#16 } b⟩

theorem execRdf_withIll {f : Field} {s t : State} (h : execRdf f s = .next t) (b : Bool) :
    ∃ u, execRdf f { s with ill := b } = .next u ∧ AgreeButIll (.rdf f) t u := by
  obtain ⟨ha, rfl⟩ | ⟨ha, v, hv, rfl⟩ := execRdf_cases h
  · exact ⟨_, execRdf_of_not_avail (s := { s with ill := b }) ha f, agreeButIll_reject (i := .rdf f) nofun _ s b⟩
  · have hv' : fieldValue { s with ill := b } s.idx.toNat f = .ok v :=
      (fieldValue_congr (by rfl) (by rfl) (by rfl) _ f).trans hv
    exact ⟨_, execRdf_of_value (s := { s with ill := b }) ha hv', agreeButIll_rdf f v s b⟩

/-- A command that completes also completes with `ILL` at the other value, and what it leaves agrees. -/
theorem exec_withIll {i : Instr} {s t : State} (h : exec i s = .next t) (b : Bool) :
    ∃ u, exec i { s with ill := b } = .next u ∧ AgreeButIll i t u := by
  obtain ⟨rfl, rfl⟩ | ⟨rfl, rfl⟩ | ⟨x, rfl, hpush⟩ | ⟨rfl, hdecode⟩ | ⟨rfl, hnext⟩ | ⟨rfl, rfl⟩ | ⟨f, rfl, hrdf⟩ |
    ⟨g, rfl, rfl⟩ := exec_cases h
  · exact ⟨_, rfl, agreeButIll_accept (i := .nop) nofun nofun s b⟩
  · exact ⟨_, rfl, agreeButIll_accept (i := .clear) nofun nofun (clearState s) false⟩
  · exact execPush_withIll hpush b
  · exact execDecode_withIll hdecode b
  · exact execNext_withIll hnext b
  · exact ⟨_, rfl, agreeButIll_accept (i := .rewind) nofun nofun { s with idx := 0#16 } b⟩
  · exact execRdf_withIll hrdf b
  · exact ⟨_, rfl, agreeButIll_rdreg g s b⟩

/-! ### The obligations -/

/-- Settles O47, by the cases of a step and the update each of them makes. -/
theorem stepKeepsInv : Obligations.StepKeepsInv := fun _ _ h ht => step_inv h ht

/-- Settles O46: `LEN` is 0, nothing is written, and every decode register is cleared. -/
theorem resetStateMeetsInv : Obligations.ResetStateMeetsInv :=
  ⟨fun _ h => resetFor_inv h, resetFor_inv (by decide)⟩

/-- Settles O45: in `LOAD` the registers are cleared, in `DONE` they are those of the frozen frame. -/
theorem decodeRegistersAgree : Obligations.DecodeRegistersAgree := by
  intro s h
  cases hp : s.phase with
  | load =>
    obtain ⟨hr, hc⟩ := h.registers_of_load hp
    exact ⟨fun hok => (nomatch hr.symm.trans hok), fun _ => hc, iff_of_true hr rfl, h.idxBound⟩
  | done =>
    obtain ⟨hr, hc⟩ | ⟨hok, hregs⟩ := h.registers_of_done hp
    · simp only [List.mem_cons, List.not_mem_nil, or_false, not_or] at hr
      obtain ⟨hnone, hnok⟩ := hr
      exact ⟨fun hok => absurd hok hnok, fun _ => hc, iff_of_false hnone nofun, h.idxBound⟩
    · exact ⟨fun _ => ⟨rfl, hregs⟩, fun hn => absurd hok hn,
        iff_of_false (by rw [hok]; nofun) nofun, h.idxBound⟩

/-- Settles O13: no step writes the configuration, and the register map reads four of its numbers only. -/
theorem constantRegistersNeverChange : Obligations.ConstantRegistersNeverChange := by
  refine ⟨fun s t h => ?_, fun s c g hncap hh hr hm => ?_⟩
  · have hcfg := step_cfg h
    exact ⟨hcfg, by rw [← hcfg]; rfl, by rw [← hcfg]; rfl, by rw [← hcfg]; rfl, by rw [← hcfg]; rfl, rfl, rfl⟩
  · cases g with
    | cfgNcap => exact congrArg (BitVec.ofNat 16) hncap
    | cfgH => exact congrArg (BitVec.ofNat 16) hh
    | cfgR => exact congrArg (BitVec.ofNat 16) hr
    | cfgM => exact congrArg (BitVec.ofNat 16) hm
    | status | len | count | rawCount | idx | calcSum | expect | maxf | rej | id | version => rfl

/-- Settles O38, by the cases of each of the four commands. -/
theorem iteratorCommandsKeepTheRest : Obligations.IteratorCommandsKeepTheRest := by
  intro i s t h
  refine ⟨?_, ?_, ?_, ?_, ?_⟩
  · rintro f rfl
    exact execRdf_frame h
  · rintro rfl
    exact execNext_frame h
  · rintro rfl
    cases h
    rfl
  · rintro g rfl
    cases h
    rfl
  · rintro (⟨f, rfl⟩ | rfl | rfl | ⟨g, rfl⟩) a
    · rw [(execRdf_frame h).1]
    · rw [(execNext_frame h).1]
    · cases h
      rfl
    · cases h
      rfl

/-- Settles O41: `exec_ovf` for a command, and the first stage of `DECODE` for the last clause but one. -/
theorem overrunFlagIsSticky : Obligations.OverrunFlagIsSticky := by
  refine ⟨fun s t h => ?_, fun s h => ⟨_, execDecode_of_validate (validate_of_ovf h), rfl⟩, fun _ => rfl⟩
  obtain ⟨-, ⟨hp, rfl⟩ | ⟨rest, hp, rfl⟩ | ⟨w, rest, i, hp, hi, hexec⟩ | ⟨w, rest, r, hp, hr, rfl⟩⟩ := step_cases h
  · simp [hp]
  · simp [hp]
  · simp [hp, hi, exec_ovf hexec]
  · simp [hp, hr]

/-- Settles O42: `exec_ill` and the decoder's agreement with the table for the flag, `exec_withIll` for its effect. -/
theorem illegalFlagIsSticky : Obligations.IllegalFlagIsSticky := by
  refine ⟨fun s t h => ?_, fun i s t b h => ?_, fun _ => rfl⟩
  · obtain ⟨-, ⟨hp, rfl⟩ | ⟨rest, hp, rfl⟩ | ⟨w, rest, i, hp, hi, hexec⟩ | ⟨w, rest, r, hp, hr, rfl⟩⟩ := step_cases h
    · simp [hp]
    · simp [hp]
    · simp [hp, hi, exec_ill hexec, spellsCommand_of_decode_ok hi]
    · simp [hp, hr, spellsCommand_of_decode_error hr]
  · obtain ⟨u, hu, ack, v, v', hagree⟩ := exec_withIll h b
    exact ⟨u, ack, v, v', hu, hagree⟩

/-- Settles O10, by the definition of the reset state. -/
theorem resetStateHasResetValues : Obligations.ResetStateHasResetValues := by
  intro c
  have hstatus : status (State.resetFor c) = 0x0000#16 :=
    (status_congr (t := State.reset) rfl rfl rfl rfl rfl rfl).trans (by decide)
  exact ⟨fun _ => rfl, rfl, rfl, rfl, rfl, rfl, rfl, rfl, rfl, rfl, rfl, rfl, rfl, hstatus, rfl, rfl, rfl, rfl, rfl,
    rfl, rfl⟩

/-- Settles O14: the fields of `STATUS` are its bits as `status_getLsbD` numbers them. -/
theorem statusWordLayout : Obligations.StatusWordLayout := by
  intro s
  refine ⟨?_, status_getLsbD s 3, status_getLsbD s 4, status_getLsbD s 5, status_getLsbD s 6, ?_, avail_iff s,
    by decide⟩
  · refine BitVec.eq_of_getLsbD_eq fun k hk => ?_
    simp [status_getLsbD, hk]
  · refine BitVec.eq_of_getLsbD_eq fun k hk => ?_
    rw [BitVec.getLsbD_extractLsb', status_getLsbD, if_neg (by omega), if_neg (by omega), if_neg (by omega),
      if_neg (by omega), if_neg (by omega)]
    simp

/-- Settles O35: the fifteen words are evaluated, the others are refused by their index. -/
theorem rdregReadsTheRegisterMap : Obligations.RdregReadsTheRegisterMap := by
  refine ⟨fun s => ⟨⟨.status, rfl, rfl⟩, ⟨.len, rfl, rfl⟩, ⟨.count, rfl, rfl⟩, ⟨.rawCount, rfl, rfl⟩, ⟨.idx, rfl, rfl⟩,
    ⟨.calcSum, rfl, rfl⟩, ⟨.expect, rfl, rfl⟩, ⟨.maxf, rfl, rfl⟩, ⟨.rej, rfl, rfl⟩, ⟨.cfgNcap, rfl, rfl⟩,
    ⟨.cfgH, rfl, rfl⟩, ⟨.cfgR, rfl, rfl⟩, ⟨.cfgM, rfl, rfl⟩, ⟨.id, rfl, rfl⟩, ⟨.version, rfl, rfl⟩⟩,
    fun _ _ => rfl, fun x hx => ?_⟩
  rw [decode_rdreg_word, decodeG_of_reserved hx]

end Sys2Proof.Machine

/-! ## The command port (20_memory.md)

What is left at the port: a command does not touch it, so a step takes the oldest input and nothing else; and what a
step does with a command word that decodes. -/

namespace Sys2Proof.Machine

/-- No command reads ahead at the port or puts anything back (R44). -/
theorem exec_port {i : Instr} {s t : State} (h : exec i s = .next t) : t.port = s.port := by
  obtain ⟨-, rfl⟩ | ⟨-, rfl⟩ | ⟨b, -, hpush⟩ | ⟨-, hdecode⟩ | ⟨-, hnext⟩ | ⟨-, rfl⟩ | ⟨f, -, hrdf⟩ | ⟨g, -, rfl⟩ :=
    exec_cases h
  · exact accept_port s
  · exact (accept_port _).trans (clearState_port s)
  · obtain ⟨-, rfl⟩ | ⟨-, -, rfl⟩ | ⟨-, -, rfl⟩ := execPush_cases hpush <;> rfl
  · obtain ⟨v, -, rfl⟩ := execDecode_next hdecode
    rfl
  · obtain ⟨-, rfl⟩ | ⟨-, rfl⟩ := execNext_cases hnext <;> rfl
  · rfl
  · rw [(execRdf_frame hrdf).1]
  · exact respond_port _ _ s

theorem runWord_of_decode {w : Word} {i : Instr} (h : decode w = .ok i) (s : State) : runWord w s = exec i s := by
  simp only [runWord, h]

/-! ### The obligations -/

/-- Settles O7, by the cases of a step: three of them set the port to the rest, and the idle one finds it empty. -/
theorem stepTakesTheOldestInput : Obligations.StepTakesTheOldestInput := by
  intro s t h
  obtain ⟨-, ⟨hp, rfl⟩ | ⟨rest, hp, rfl⟩ | ⟨w, rest, i, hp, -, hexec⟩ | ⟨w, rest, r, hp, -, rfl⟩⟩ := step_cases h
  · rw [idle_port, hp, List.tail_nil]
  · rw [clearState_port, hp, List.tail_cons]
  · rw [exec_port hexec, hp, List.tail_cons]
  · rw [reject_port, hp, List.tail_cons]

/-- Settles O6: the step runs the word, and the word runs the command it decodes to. -/
theorem stepRunsTheDecodedCommand : Obligations.StepRunsTheDecodedCommand := by
  intro s w rest i hwf hp hi
  rw [step_command hwf hp, runWord_of_decode hi]

end Sys2Proof.Machine

/-! ## Encoding (30_encoding.md)

The decoder as the inverse of the encoder, the opcode map as its table, the word that spells no command, and the
assembler: what each pseudo-instruction emits, how the sum of `PUSHCS` is carried, and that a frame it closes passes. -/

namespace Sys2Proof

/-! ### Decoder and encoder are inverse (R48 to R50, R57) -/

/-- A select number names exactly the field that has it (R53). -/
theorem Field.ofSelect_eq_some_iff {n : Nat} {f : Field} : Field.ofSelect n = some f ↔ n = f.select := by
  constructor
  · intro h
    unfold Field.ofSelect at h
    split at h <;> cases h <;> rfl
  · rintro rfl
    cases f <;> rfl

/-- A register index names exactly the register that has it (10_state.md R31). -/
theorem Reg.ofIndex_eq_some_iff {n : Nat} {g : Reg} : Reg.ofIndex n = some g ↔ n = g.index := by
  constructor
  · intro h
    unfold Reg.ofIndex at h
    split at h <;> cases h <;> rfl
  · rintro rfl
    cases g <;> rfl

theorem Field.select_le (f : Field) : f.select ≤ 7 :=
  (Field.exists_ofSelect_iff _).mp ⟨f, Field.ofSelect_eq_some_iff.mpr rfl⟩

theorem Reg.index_le (g : Reg) : g.index ≤ 0x0E :=
  (Reg.exists_ofIndex_iff _).mp ⟨g, Reg.ofIndex_eq_some_iff.mpr rfl⟩

theorem Field.ofSelect_eq_none {n : Nat} (h : 8 ≤ n) : Field.ofSelect n = none :=
  Option.eq_none_iff_forall_ne_some.mpr fun f hf => by
    have := (Field.exists_ofSelect_iff n).mp ⟨f, hf⟩
    omega

theorem Reg.ofIndex_eq_none {n : Nat} (h : 0x0F ≤ n) : Reg.ofIndex n = none :=
  Option.eq_none_iff_forall_ne_some.mpr fun g hg => by
    have := (Reg.exists_ofIndex_iff n).mp ⟨g, hg⟩
    omega

/-- A byte is an operand number below 256 exactly when its value is. -/
theorem byte_eq_ofNat_iff {x : Byte} {n : Nat} (hn : n < 256) : x = BitVec.ofNat 8 n ↔ x.toNat = n := by
  rw [← BitVec.toNat_inj, BitVec.toNat_ofNat, Nat.mod_eq_of_lt hn]

theorem operand_eq_select_iff {x : Byte} {f : Field} : x = BitVec.ofNat 8 f.select ↔ x.toNat = f.select :=
  byte_eq_ofNat_iff (lt_of_le_of_lt f.select_le (by decide))

theorem operand_eq_index_iff {x : Byte} {g : Reg} : x = BitVec.ofNat 8 g.index ↔ x.toNat = g.index :=
  byte_eq_ofNat_iff (lt_of_le_of_lt g.index_le (by decide))

theorem decodeZ_eq_ok_iff {x : Byte} {i j : Instr} : decodeZ x i = .ok j ↔ x = 0#8 ∧ i = j := by
  unfold decodeZ
  split <;> simp_all

/-- The low nibble of an operand the range check lets through is the operand (R53). -/
theorem decodeF_eq_ok_iff {x : Byte} {i : Instr} :
    decodeF x = .ok i ↔ ∃ f, x = BitVec.ofNat 8 f.select ∧ i = .rdf f := by
  constructor
  · intro h
    have hx : x.toNat ≤ 7 := (exists_decodeF_iff x).mp ⟨i, h⟩
    have hlow : (x.extractLsb' 0 4).toNat = x.toNat := by
      rw [BitVec.extractLsb'_toNat, Nat.shiftRight_zero]
      omega
    unfold decodeF at h
    split at h
    · split at h
      · rename_i f hf
        cases h
        rw [hlow, Field.ofSelect_eq_some_iff] at hf
        exact ⟨f, operand_eq_select_iff.mpr hf, rfl⟩
      · cases h
    · cases h
  · rintro ⟨f, rfl, rfl⟩
    cases f <;> rfl

theorem decodeG_eq_ok_iff {x : Byte} {i : Instr} :
    decodeG x = .ok i ↔ ∃ g, x = BitVec.ofNat 8 g.index ∧ i = .rdreg g := by
  simp only [operand_eq_index_iff, ← Reg.ofIndex_eq_some_iff, decodeG]
  cases Reg.ofIndex x.toNat <;> simp [eq_comm]

/-- A word is its opcode byte over its operand byte (R48). -/
theorem opcodeOf_append_operandOf (w : Word) : opcodeOf w ++ operandOf w = w :=
  BitVec.extractLsb'_append_extractLsb'_eq_extractLsb' rfl |>.trans BitVec.extractLsb'_eq_self

theorem eq_encode_iff {w : Word} {i : Instr} : w = encode i ↔ opcodeOf w = i.opcode ∧ operandOf w = i.operand := by
  constructor
  · rintro rfl
    exact ⟨opcodeOf_append _ _, operandOf_append _ _⟩
  · rintro ⟨hop, hx⟩
    rw [← opcodeOf_append_operandOf w, hop, hx, encode]

theorem decode_encode (i : Instr) : decode (encode i) = .ok i := by
  rw [decode, encode, opcodeOf_append, operandOf_append]
  cases i with
  | nop | clear | push | decode | next | rewind => rfl
  | rdf f => exact decodeF_eq_ok_iff.mpr ⟨f, rfl, rfl⟩
  | rdreg g => exact decodeG_eq_ok_iff.mpr ⟨g, rfl, rfl⟩

theorem decode_append {op x : Byte} {i : Instr} (hop : op = i.opcode) (hx : x = i.operand) :
    decode (op ++ x) = .ok i := by
  rw [hop, hx]
  exact decode_encode i

/-- Each row of the opcode map fixes the opcode, and its form fixes the operand. -/
theorem eq_encode_of_decode_eq_ok {w : Word} {i : Instr} (h : decode w = .ok i) : w = encode i := by
  rw [eq_encode_iff]
  unfold decode at h
  split at h
  case h_1 hop | h_2 hop | h_4 hop | h_5 hop | h_6 hop =>
    obtain ⟨hx, rfl⟩ := decodeZ_eq_ok_iff.mp h
    exact ⟨BitVec.eq_of_toNat_eq hop, hx⟩
  case h_3 hop =>
    cases h
    exact ⟨BitVec.eq_of_toNat_eq hop, rfl⟩
  case h_7 hop =>
    obtain ⟨f, hx, rfl⟩ := decodeF_eq_ok_iff.mp h
    exact ⟨BitVec.eq_of_toNat_eq hop, hx⟩
  case h_8 hop =>
    obtain ⟨g, hx, rfl⟩ := decodeG_eq_ok_iff.mp h
    exact ⟨BitVec.eq_of_toNat_eq hop, hx⟩
  case h_9 => cases h

theorem decode_eq_ok_iff {w : Word} {i : Instr} : decode w = .ok i ↔ w = encode i :=
  ⟨eq_encode_of_decode_eq_ok, fun h => h ▸ decode_encode i⟩

theorem exists_decode_error_of_not_spellsCommand {w : Word} (h : Machine.spellsCommand w = false) :
    ∃ r, decode w = .error r := by
  cases hd : decode w with
  | error r => exact ⟨r, rfl⟩
  | ok i => cases h.symm.trans (spellsCommand_of_decode_ok hd)

/-! ### The rows of the opcode map (R50) -/

/-- The check of a row, byte by byte. -/
theorem OpRow.matchesWord_iff (row : OpRow) (w : Word) :
    row.matchesWord w = true ↔
      opcodeOf w &&& opcodeOf row.mask = opcodeOf row.pattern ∧
      operandOf w &&& operandOf row.mask = operandOf row.pattern ∧ (operandOf w).toNat ≤ row.maxOperand := by
  have hbytes : w &&& row.mask = row.pattern ↔
      opcodeOf (w &&& row.mask) = opcodeOf row.pattern ∧ operandOf (w &&& row.mask) = operandOf row.pattern := by
    refine ⟨fun h => by rw [h]; exact ⟨rfl, rfl⟩, fun ⟨hop, hx⟩ => ?_⟩
    rw [← opcodeOf_append_operandOf (w &&& row.mask), hop, hx, opcodeOf_append_operandOf]
  rw [OpRow.matchesWord, Bool.and_eq_true, beq_iff_eq, decide_eq_true_eq, hbytes, and_assoc, opcodeOf, operandOf,
    BitVec.extractLsb'_and, BitVec.extractLsb'_and]
  rfl

/-- A row's fixed bits hold the whole opcode, and its operand bits and range check let through what the table of R50
gives that opcode. -/
theorem OpRow.matchesWord_iff_spellsCommand {row : OpRow} (h : row ∈ opcodeMap) (w : Word) :
    row.matchesWord w = true ↔ opcodeOf w = opcodeOf row.pattern ∧ Machine.spellsCommand w = true := by
  have hall (b : Byte) : b &&& 0xFF#8 = b := BitVec.and_allOnes
  have hselect : ∀ b : Byte, b &&& 0xF8#8 = 0#8 ↔ b.toNat ≤ 7 := by decide
  have hzero (b : Byte) : b = 0#8 ↔ b.toNat = 0 := byte_eq_ofNat_iff (by decide)
  have hle (b : Byte) : b.toNat ≤ 255 := Nat.le_of_lt_succ b.isLt
  have hopcode : opcodeOf row.mask = 0xFF#8 := by
    revert row
    decide
  rw [row.matchesWord_iff, hopcode, hall, Machine.spellsCommand, decide_eq_true_eq, ← opcodeOf_toNat, ← operandOf_toNat]
  generalize operandOf w = x
  refine and_congr_right fun hop => ?_
  rw [hop]
  fin_cases h <;> simp [opcodeOf, operandOf, hall, hselect, hzero, hle]

theorem OpRow.mnemonic_eq_iff {row : OpRow} (h : row ∈ opcodeMap) (i : Instr) :
    row.mnemonic = i.mnemonic ↔ i.opcode = opcodeOf row.pattern := by
  fin_cases h <;> cases i <;> simp [Instr.mnemonic, Instr.opcode, opcodeOf]

/-- Exactly one row has the opcode of a command. -/
theorem exists_opcodeMap_filter_eq_singleton (i : Instr) :
    ∃ row, (opcodeMap.filter fun r => decide (i.opcode = opcodeOf r.pattern)) = [row] := by
  cases i <;> exact ⟨_, rfl⟩

end Sys2Proof

namespace Sys2Proof.Machine

/-! ### What a command word answers (R51 to R56) -/

theorem runWord_of_decode_error {w : Word} {r : DecodeReject} (h : decode w = .error r) (s : State) :
    runWord w s = .next (reject .illegal s) := by
  simp only [runWord, h, rejectIllegal_eq]

/-- The data of an accepted command run in `s` that leaves `t` (R56). -/
def AcceptedData (i : Instr) (s t : State) (data : Word) : Prop :=
  match i with
  | .rdf f => fieldValue s s.idx.toNat f = .ok data
  | .rdreg g => data = regValue s g
  | .nop | .clear | .push _ | .decode | .next | .rewind => data = status t

/-- A command that answers a next state responds by the rule of R56, and `DECODE` is not rejected. -/
theorem exec_resp {i : Instr} {s t : State} (h : exec i s = .next t) :
    (t.resp = some ⟨false, status t⟩ ∧ i ≠ .decode) ∨
      ∃ data, t.resp = some ⟨true, data⟩ ∧ AcceptedData i s t data := by
  obtain ⟨rfl, rfl⟩ | ⟨rfl, rfl⟩ | ⟨b, rfl, hpush⟩ | ⟨rfl, hdecode⟩ | ⟨rfl, hnext⟩ | ⟨rfl, rfl⟩ | ⟨f, rfl, hrdf⟩ |
    ⟨g, rfl, rfl⟩ := exec_cases h
  · exact .inr ⟨_, rfl, rfl⟩
  · exact .inr ⟨_, rfl, rfl⟩
  · obtain ⟨-, rfl⟩ | ⟨-, -, rfl⟩ | ⟨-, -, rfl⟩ := execPush_cases hpush
    · exact .inl ⟨rfl, nofun⟩
    · exact .inl ⟨rfl, nofun⟩
    · exact .inr ⟨_, rfl, rfl⟩
  · obtain ⟨v, -, rfl⟩ := execDecode_next hdecode
    exact .inr ⟨_, rfl, rfl⟩
  · obtain ⟨-, rfl⟩ | ⟨-, rfl⟩ := execNext_cases hnext
    · exact .inl ⟨rfl, nofun⟩
    · exact .inr ⟨_, rfl, rfl⟩
  · exact .inr ⟨_, rfl, rfl⟩
  · obtain ⟨-, rfl⟩ | ⟨-, v, hv, rfl⟩ := execRdf_cases hrdf
    · exact .inl ⟨rfl, nofun⟩
    · exact .inr ⟨v, rfl, hv⟩
  · exact .inr ⟨_, rfl, rfl⟩

/-! ### The obligations of the encoding -/

/-- Settles O1: every command round-trips, and a word that decodes has the bytes its command encodes to. -/
theorem decodeIffEncode : Obligations.DecodeIffEncode := fun _ _ => decode_eq_ok_iff

/-- Settles O2, by evaluating the decoder on the eight words. -/
theorem opcodeMapWordsDecode : Obligations.OpcodeMapWordsDecode := by
  unfold Obligations.OpcodeMapWordsDecode
  decide

/-- Settles O3: each legal `{op, x}` is the word its command encodes to, the words that decode are those of the table,
and any other is rejected before the state is looked at. -/
theorem decodeFollowsItsCases : Obligations.DecodeFollowsItsCases := by
  intro op x
  refine ⟨decode_append (i := .nop), decode_append (i := .clear), fun hop => decode_append (i := .push x) hop rfl,
    decode_append (i := .decode), decode_append (i := .next), decode_append (i := .rewind),
    fun hop f hx => decode_append (i := .rdf f) hop (operand_eq_select_iff.mpr hx),
    fun hop g hx => decode_append (i := .rdreg g) hop (operand_eq_index_iff.mpr hx), ?legal, ?illegal⟩
  case legal =>
    rw [exists_decode_iff_spellsCommand, spellsCommand, decide_eq_true_eq, ← opcodeOf_toNat, ← operandOf_toNat,
      opcodeOf_append, operandOf_append]
    simp only [← BitVec.toNat_inj]
    rfl
  case illegal =>
    intro s rest r hwf hp hr
    rw [step_command hwf hp, runWord_of_decode_error hr]
    exact ⟨_, rfl, reject_rej _ _, _, reject_resp _ _⟩

/-- Settles O4: a row matches a word exactly when the word spells a command and has the row's opcode, and the opcode of
a row is that of its mnemonic and of no other row. -/
theorem opcodeRowsAreTheDecoder : Obligations.OpcodeRowsAreTheDecoder := by
  refine fun w => ⟨fun i hi => ?_, fun ⟨row, hrow, hmatch⟩ => ?_⟩
  · have hop : opcodeOf w = i.opcode := (eq_encode_iff.mp (decode_eq_ok_iff.mp hi)).1
    have hrows (row : OpRow) (hrow : row ∈ opcodeMap) :
        row.matchesWord w = true ↔ i.opcode = opcodeOf row.pattern := by
      rw [OpRow.matchesWord_iff_spellsCommand hrow, hop, and_iff_left (spellsCommand_of_decode_ok hi)]
    obtain ⟨row, hfilter⟩ := exists_opcodeMap_filter_eq_singleton i
    have hmem := List.mem_filter.mp (hfilter.symm ▸ List.mem_singleton_self row)
    refine ⟨⟨row, ?_, (row.mnemonic_eq_iff hmem.1 i).mpr (of_decide_eq_true hmem.2)⟩, fun row hrow => ?_⟩
    · rw [← hfilter]
      refine List.filter_congr fun r hr => ?_
      rw [Bool.eq_iff_iff, hrows r hr, decide_eq_true_eq]
    · rw [hrows row hrow, row.mnemonic_eq_iff hrow]
  · exact (exists_decode_iff_spellsCommand w).mpr ((OpRow.matchesWord_iff_spellsCommand hrow w).mp hmatch).2

/-- Settles O5: the word decodes to an error, and the step is the rejection path with reason 1. -/
theorem illegalWordsAreRejected : Obligations.IllegalWordsAreRejected := by
  intro s w rest hwf hp hw
  obtain ⟨r, hr⟩ := exists_decode_error_of_not_spellsCommand hw
  rw [step_command hwf hp, runWord_of_decode_error hr]
  simp [reject, respond]

/-- Settles O15: a word that decodes answers by `exec_resp`, any other is rejected. -/
theorem everyCommandAnswersByTheRule : Obligations.EveryCommandAnswersByTheRule := by
  intro s t w rest hp ht
  obtain ⟨hwf, -⟩ := step_cases ht
  rw [step_command hwf hp] at ht
  cases hd : decode w with
  | error r =>
    rw [runWord_of_decode_error hd] at ht
    cases ht
    exact ⟨false, _, rfl, fun _ => rfl, nofun, nofun⟩
  | ok i =>
    rw [runWord_of_decode hd] at ht
    obtain ⟨hresp, hi⟩ | ⟨data, hresp, hdata⟩ := exec_resp ht
    · exact ⟨false, _, hresp, fun _ => rfl, nofun, fun h => absurd (Except.ok.inj h) hi⟩
    · refine ⟨true, data, hresp, nofun, fun _ => ?_, fun _ => rfl⟩
      cases i with
      | rdf f => exact (fieldValue_congr (s := s) (t := { s with port := rest }) rfl rfl rfl _ f).trans hdata
      | nop | clear | push | decode | next | rewind | rdreg => exact hdata

end Sys2Proof.Machine

namespace Sys2Proof.Asm

/-! ### Operands of the assembler (R58) -/

/-- No field name reads as a number. -/
theorem number_of_fieldName {cs : List Char} {f : Field} (h : fieldName cs = some f) : number cs = none := by
  rw [← String.toList_ofList (l := cs)]
  unfold fieldName at h
  split at h
  case h_9 => cases h
  all_goals
    rename_i hname
    rw [hname]
    rfl

/-- No register name reads as a number. -/
theorem number_of_regName {cs : List Char} {g : Reg} (h : regName cs = some g) : number cs = none := by
  rw [← String.toList_ofList (l := cs)]
  unfold regName at h
  split at h
  case h_16 => cases h
  all_goals
    rename_i hname
    rw [hname]
    rfl

theorem fieldOperand_of_number {cs : List Char} {n : Nat} (h : number cs = some n) :
    fieldOperand cs = (Field.ofSelect n).elim (.error .outOfRange) .ok := by
  cases hname : fieldName cs with
  | some f => cases h.symm.trans (number_of_fieldName hname)
  | none =>
    simp only [fieldOperand, hname, h]
    cases Field.ofSelect n <;> rfl

theorem regOperand_of_number {cs : List Char} {n : Nat} (h : number cs = some n) :
    regOperand cs = (Reg.ofIndex n).elim (.error .outOfRange) .ok := by
  cases hname : regName cs with
  | some g => cases h.symm.trans (number_of_regName hname)
  | none =>
    simp only [regOperand, hname, h]
    cases Reg.ofIndex n <;> rfl

theorem boundedNumber_of_number {bound n : Nat} {cs : List Char} (h : number cs = some n) :
    boundedNumber bound cs = if n < bound then .ok n else .error .outOfRange := by
  simp only [boundedNumber, h]

theorem isEmpty_of_number {cs : List Char} {n : Nat} (h : number cs = some n) : cs.isEmpty = false := by
  cases cs with
  | nil => cases h
  | cons c cs => rfl

theorem oneOperand_ok {α : Type} {cs : List Char} {n : Nat} {parse : List Char → Except AsmError α} {v : α}
    (h : number cs = some n) (hv : parse cs = .ok v) (make : α → Line) : oneOperand cs parse make = .ok (make v) := by
  rw [oneOperand, isEmpty_of_number h, hv]
  rfl

theorem oneOperand_error {α : Type} {cs : List Char} {n : Nat} {parse : List Char → Except AsmError α} {e : AsmError}
    (h : number cs = some n) (he : parse cs = .error e) (make : α → Line) : oneOperand cs parse make = .error e := by
  rw [oneOperand, isEmpty_of_number h, he]
  rfl

/-- A text reads as a byte exactly when it reads as the byte's value. -/
theorem byteOperand_eq_ok_iff {cs : List Char} {b : Byte} : byteOperand cs = .ok b ↔ number cs = some b.toNat := by
  unfold byteOperand boundedNumber
  cases number cs with
  | none => simp [Except.map]
  | some n =>
    have := b.isLt
    simp only [Option.some.injEq]
    split
    · rename_i hn
      simp only [Except.map, Except.ok.injEq, byte_eq_ofNat_iff hn, eq_comm]
    · simp only [Except.map, reduceCtorEq, false_iff]
      omega

/-- A list of operands reads as bytes exactly when each operand does. -/
theorem byteList_eq_ok_iff {parts : List (List Char)} {bs : List Byte} :
    byteList parts = .ok bs ↔ parts.map (fun p => number (trim p)) = bs.map (fun b => some b.toNat) := by
  induction parts generalizing bs with
  | nil => cases bs <;> simp [byteList]
  | cons p parts ih =>
    have hcons : byteList (p :: parts) = .ok bs ↔
        ∃ b rest, byteOperand (trim p) = .ok b ∧ byteList parts = .ok rest ∧ bs = b :: rest := by
      rw [byteList]
      cases byteOperand (trim p) <;> cases byteList parts <;> simp [bind, Except.bind, eq_comm]
    simp only [hcons, byteOperand_eq_ok_iff, ih]
    cases bs <;> simp

end Sys2Proof.Asm

namespace Sys2Proof.Machine

/-- Settles O51: an operand that reads as a number is not empty and no name, so its line is decided by the number
alone. -/
theorem assemblerNeverWrapsAnOperand : Obligations.AssemblerNeverWrapsAnOperand := by
  refine ⟨fun cs n h => ⟨fun hn => ?_, fun hn => ?_, fun hn => ?_, fun hn => ?_, fun hn => ?_, fun hn => ?_,
    fun hn => ?_, fun hn => ?_, ?_⟩, fun _ _ => Asm.byteList_eq_ok_iff⟩
  · have hb : (BitVec.ofNat 8 n).toNat = n := (byte_eq_ofNat_iff hn).mp rfl
    exact ⟨_, Asm.oneOperand_ok h (Asm.byteOperand_eq_ok_iff.mpr (h.trans (congrArg some hb.symm))) _, hb⟩
  · refine Asm.oneOperand_error h ?_ _
    rw [Asm.byteOperand, Asm.boundedNumber_of_number h, if_neg hn.not_gt]
    rfl
  · obtain ⟨f, hf⟩ := (Field.exists_ofSelect_iff n).mpr (Nat.le_of_lt_succ hn)
    refine ⟨f, Asm.oneOperand_ok h ?_ _, (Field.ofSelect_eq_some_iff.mp hf).symm⟩
    rw [Asm.fieldOperand_of_number h, hf, Option.elim_some]
  · refine Asm.oneOperand_error h ?_ _
    rw [Asm.fieldOperand_of_number h, Field.ofSelect_eq_none hn, Option.elim_none]
  · obtain ⟨g, hg⟩ := (Reg.exists_ofIndex_iff n).mpr (Nat.le_of_lt_succ hn)
    refine ⟨g, Asm.oneOperand_ok h ?_ _, (Reg.ofIndex_eq_some_iff.mp hg).symm⟩
    rw [Asm.regOperand_of_number h, hg, Option.elim_some]
  · refine Asm.oneOperand_error h ?_ _
    rw [Asm.regOperand_of_number h, Reg.ofIndex_eq_none hn, Option.elim_none]
  · refine ⟨BitVec.ofNat 16 n, Asm.oneOperand_ok h ?_ _, Nat.mod_eq_of_lt hn⟩
    rw [Asm.boundedNumber_of_number h, if_pos hn]
  · refine Asm.oneOperand_error h ?_ _
    rw [Asm.boundedNumber_of_number h, if_neg hn.not_gt]
  · refine Asm.oneOperand_ok (parse := fun cs => (Asm.number cs).elim (.error .badOperand) .ok) h ?_ _
    rw [h, Option.elim_some]

end Sys2Proof.Machine

namespace Sys2Proof.Asm

/-! ### The sum of `PUSHCS` and the pseudo-instructions (R59) -/

/-- A line of commands emits their words, and the text after it starts from the sum they leave. -/
theorem assembleFrom_command {sum : Option Nat} {c : Command} {emitted : List Instr} (h : expand sum c = .ok emitted)
    (later : List Line) :
    assembleFrom sum (.command c :: later) =
      (assembleFrom (emitted.foldl trackSum sum) later).map (emitted.map encode ++ ·) := by
  rw [assembleFrom, h]
  rfl

/-- A line alone emits the words of its expansion. -/
theorem assembleLines_singleton {c : Command} {emitted : List Instr} (h : expand none c = .ok emitted) :
    assembleLines [.command c] = .ok (emitted.map encode) := by
  rw [assembleLines, assembleFrom_command h, assembleFrom, Except.map, List.append_nil]

/-- A run of command lines emits their words. -/
theorem assembleFrom_instrs (body : List Instr) (sum : Option Nat) (later : List Line) :
    assembleFrom sum (body.map (fun i => .command (.instr i)) ++ later) =
      (assembleFrom (body.foldl trackSum sum) later).map (body.map encode ++ ·) := by
  induction body generalizing sum with
  | nil => cases h : assembleFrom sum later <;> simp [Except.map, h]
  | cons i body ih =>
    rw [List.map_cons, List.cons_append, assembleFrom_command (emitted := [i]) rfl, ih]
    cases h : assembleFrom ((i :: body).foldl trackSum sum) later <;> simp_all [Except.map]

/-- Every command but `CLEAR` adds what it pushes to a sum that has started. -/
theorem trackSum_of_ne_clear {i : Instr} (h : i ≠ .clear) (v : Nat) :
    trackSum (some v) i = some (v + Machine.pushedValue i) := by
  cases i with
  | clear => exact absurd rfl h
  | nop | push | decode | next | rewind | rdf | rdreg => rfl

/-- Commands with no `CLEAR` among them add the values they push. -/
theorem foldl_trackSum_some {body : List Instr} (h : .clear ∉ body) (v : Nat) :
    body.foldl trackSum (some v) = some (v + (body.map Machine.pushedValue).sum) := by
  induction body generalizing v with
  | nil => simp
  | cons i body ih =>
    obtain ⟨hi, hbody⟩ := List.ne_and_not_mem_of_not_mem_cons h
    rw [List.foldl_cons, trackSum_of_ne_clear hi.symm, ih hbody, List.map_cons, List.sum_cons, Nat.add_assoc]

theorem clear_not_mem_pushAll (bs : List Byte) : .clear ∉ pushAll bs := by
  simp [pushAll]

theorem map_pushedValue_pushAll (bs : List Byte) : (pushAll bs).map Machine.pushedValue = bs.map BitVec.toNat := by
  simp [pushAll, Machine.pushedValue]

/-- Without a frame start there is no sum. -/
theorem foldl_trackSum_none_pushAll (bs : List Byte) : (pushAll bs).foldl trackSum none = none := by
  induction bs with
  | nil => rfl
  | cons b bs ih => exact ih

/-- The words of `PUSH`es of these bytes. -/
def pushWords (bs : List Byte) : List Word := bs.map fun b => 0x02#8 ++ b

theorem map_encode_pushAll (bs : List Byte) : (pushAll bs).map encode = pushWords bs := List.map_map

@[simp] theorem pushWords_append (bs bs' : List Byte) : pushWords (bs ++ bs') = pushWords bs ++ pushWords bs' :=
  List.map_append

@[simp] theorem length_pushWords (bs : List Byte) : (pushWords bs).length = bs.length := List.length_map _

/-- The two bytes of a sum, as `PUSHCS` pushes them. -/
def checksumBytes (sum : Nat) : List Byte :=
  [BitVec.ofNat 8 (sum % 65536 % 256), BitVec.ofNat 8 (sum % 65536 / 256)]

theorem pushWord_ofNat (sum : Nat) : pushWord (BitVec.ofNat 16 sum) = pushAll (checksumBytes sum) := by
  have hlow : (BitVec.ofNat 16 sum).extractLsb' 0 8 = BitVec.ofNat 8 (sum % 65536 % 256) := by
    apply BitVec.eq_of_toNat_eq
    simp [BitVec.extractLsb'_toNat]
  have hhigh : (BitVec.ofNat 16 sum).extractLsb' 8 8 = BitVec.ofNat 8 (sum % 65536 / 256) := by
    apply BitVec.eq_of_toNat_eq
    simp [BitVec.extractLsb'_toNat, Nat.shiftRight_eq_div_pow]
  rw [pushWord, hlow, hhigh]
  rfl

/-- `PUSHCS` after a frame start and commands that are not `CLEAR` pushes the sum of what they push, whatever text
follows. -/
theorem assembleFrom_pushCs {body : List Instr} (h : .clear ∉ body) (later : List Line) :
    ∃ sum, assembleFrom (body.foldl trackSum (some 0)) (.command .pushCs :: later) =
      (assembleFrom sum later).map (pushWords (checksumBytes (body.map Machine.pushedValue).sum) ++ ·) := by
  have hexpand : expand (some (body.map Machine.pushedValue).sum) .pushCs =
      .ok (pushAll (checksumBytes (body.map Machine.pushedValue).sum)) := by
    rw [expand, pushWord_ofNat]
  refine ⟨(pushAll (checksumBytes (body.map Machine.pushedValue).sum)).foldl trackSum
    (some (body.map Machine.pushedValue).sum), ?_⟩
  rw [foldl_trackSum_some h, Nat.zero_add, assembleFrom_command hexpand, map_encode_pushAll]

/-- A `LOADF` is a frame start and its `PUSH`es, whatever text stands before it. -/
theorem assembleFrom_loadF (sum : Option Nat) (bs : List Byte) (later : List Line) :
    assembleFrom sum (.command (.loadF bs) :: later) =
      (assembleFrom ((pushAll bs).foldl trackSum (some 0)) later).map (0x0100#16 :: pushWords bs ++ ·) := by
  rw [assembleFrom_command (emitted := .clear :: pushAll bs) rfl, List.map_cons, map_encode_pushAll]
  rfl

/-- A `CLEAR` is a frame start, whatever text stands before it. -/
theorem assembleFrom_clear (sum : Option Nat) (later : List Line) :
    assembleFrom sum (.command (.instr .clear) :: later) = (assembleFrom (some 0) later).map (0x0100#16 :: ·) :=
  assembleFrom_command (emitted := [.clear]) rfl later

end Sys2Proof.Asm

namespace Sys2Proof.Machine

/-- Settles O50: a pseudo-instruction alone emits its expansion; a frame start sets the sum to 0 and the commands after
it add what they push, so `PUSHCS` pushes their sum, and without a frame start there is none. -/
theorem pseudoInstructionsExpandAsTabled : Obligations.PseudoInstructionsExpandAsTabled := by
  unfold Obligations.PseudoInstructionsExpandAsTabled
  intro pushes checksum
  refine ⟨fun bs => ?_, fun _ => rfl, fun n => ?_, fun bs => ?_, rfl, rfl, fun bs => ?_,
    fun before words hbefore => ?_⟩
  · exact (Asm.assembleLines_singleton rfl).trans (congrArg Except.ok (Asm.map_encode_pushAll bs))
  · rw [Asm.assembleLines_singleton rfl, List.map_replicate]
    rfl
  · rw [Asm.assembleLines, Asm.assembleFrom_loadF]
    simp [Asm.assembleFrom, Except.map, pushes, Asm.pushWords]
  · rw [Asm.assembleLines, Asm.assembleFrom_command rfl, Asm.foldl_trackSum_none_pushAll]
    rfl
  · obtain ⟨sum, hbefore⟩ := Asm.assembleFrom_append before none words hbefore
    refine ⟨fun bs => ⟨?_, ?_⟩, fun body hbody => ?_⟩
    · obtain ⟨sum', hcs⟩ := Asm.assembleFrom_pushCs (Asm.clear_not_mem_pushAll bs) []
      rw [Asm.assembleLines, hbefore, Asm.assembleFrom_loadF, hcs, Asm.map_pushedValue_pushAll]
      simp [Asm.assembleFrom, Except.map, pushes, checksum, Asm.pushWords, Asm.checksumBytes]
    · obtain ⟨sum', hcs⟩ := Asm.assembleFrom_pushCs (Asm.clear_not_mem_pushAll bs) []
      rw [Asm.assembleLines, hbefore, Asm.assembleFrom_clear, Asm.assembleFrom_command rfl, hcs,
        Asm.map_pushedValue_pushAll, Asm.map_encode_pushAll]
      simp [Asm.assembleFrom, Except.map, pushes, checksum, Asm.pushWords, Asm.checksumBytes]
    · obtain ⟨sum', hcs⟩ := Asm.assembleFrom_pushCs hbody []
      rw [Asm.assembleLines, hbefore, Asm.assembleFrom_clear, Asm.assembleFrom_instrs, hcs]
      simp [Asm.assembleFrom, Except.map, pushes, checksum, Asm.pushWords, Asm.checksumBytes]

/-! ### Running a frame the assembler made (R59, R62, R64, R68) -/

theorem stepMany_succ_of_step {s t : State} (h : step s = .next t) (k : Nat) : stepMany (k + 1) s = stepMany k t := by
  rw [stepMany, h]

theorem stepMany_add {m : Nat} {s t : State} (h : stepMany m s = .next t) (n : Nat) :
    stepMany (m + n) s = stepMany n t := by
  induction m generalizing s with
  | zero =>
    cases h
    rw [Nat.zero_add]
  | succ m ih =>
    cases hs : step s with
    | next u =>
      rw [stepMany_succ_of_step hs] at h
      rw [Nat.succ_add, stepMany_succ_of_step hs, ih h]
    | fault f => simp [stepMany, hs] at h
    | refused r => simp [stepMany, hs] at h

/-- A step that takes the word of a command runs the command. -/
theorem step_sending {i : Instr} {words : List Word} {s : State} (hwf : s.cfg.wf = true) :
    step (sending (encode i :: words) s) = exec i (sending words s) := by
  rw [step_command (s := sending (encode i :: words) s) hwf rfl, runWord_of_decode (decode_encode i)]
  rfl

/-- The bytes of a list by their address, 0 beyond its end. -/
def bytesAt (bs : List Byte) (a : Nat) : Byte := bs.getD a 0#8

/-- A block of configuration `c` in `LOAD` that holds exactly these bytes. -/
structure Loaded (c : Config) (bs : List Byte) (s : State) : Prop where
  cfg : s.cfg = c
  phase : s.phase = .load
  ovf : s.ovf = false
  len : s.len.toNat = bs.length
  holds : HoldsFrame s (bytesAt bs)

/-- What the host has still to send does not matter. -/
theorem Loaded.sending {c : Config} {bs : List Byte} {s : State} (h : Loaded c bs s) (words : List Word) :
    Loaded c bs (sending words s) := ⟨h.cfg, h.phase, h.ovf, h.len, h.holds⟩

theorem loaded_clear (s : State) : Loaded s.cfg [] (accept (clearState s)) :=
  ⟨rfl, rfl, rfl, rfl, fun _ ha => absurd ha (Nat.not_lt_zero _)⟩

/-- An accepted `PUSH` appends its byte. -/
theorem Loaded.push {c : Config} {bs : List Byte} {s : State} (h : Loaded c bs s) (hwf : c.wf = true)
    (hroom : bs.length < c.ncap) (b : Byte) :
    Loaded c (bs ++ [b])
      (accept { s with buf := Memory.write s.buf s.len.toNat b, len := s.len + 1#16 }) := by
  obtain ⟨rfl, hphase, hovf, hlen, hholds⟩ := h
  have hsucc := len_succ_toNat hwf (hlen ▸ hroom)
  refine ⟨rfl, hphase, hovf, by simpa [← hlen] using hsucc, fun a ha => ?_⟩
  rw [accept_len] at ha
  rw [accept_buf, bytesAt]
  rcases Nat.lt_succ_iff_lt_or_eq.mp (hsucc ▸ ha) with hlt | rfl
  · rw [Memory.read_write_other _ _ hlt.ne, hholds a hlt, bytesAt, List.getD_append _ _ _ _ (hlen ▸ hlt)]
  · rw [Memory.read_write_same, hlen, List.getD_append_right _ _ _ _ le_rfl, Nat.sub_self]
    rfl

/-- The words of `PUSH`es that fit load their bytes. -/
theorem Loaded.stepMany_pushes {c : Config} (hwf : c.wf = true) (later : List Word) (bs : List Byte) {done : List Byte}
    {s : State} (h : Loaded c done s) (hfit : done.length + bs.length ≤ c.ncap) :
    ∃ t, stepMany bs.length (Machine.sending (Asm.pushWords bs ++ later) s) = .next (Machine.sending later t) ∧
      Loaded c (done ++ bs) t := by
  induction bs generalizing done s with
  | nil => exact ⟨s, rfl, by rwa [List.append_nil]⟩
  | cons b bs ih =>
    rw [List.length_cons] at hfit
    have hroom : done.length < c.ncap := by omega
    obtain ⟨t, hrun, ht⟩ := ih (h.push hwf hroom b) (by rw [List.length_append, List.length_singleton]; omega)
    refine ⟨t, ?_, by simpa using ht⟩
    have hstep := step_sending (i := .push b) (words := Asm.pushWords bs ++ later) (h.cfg ▸ hwf)
    rw [exec, execPush_of_room (h.sending _).phase (by rw [(h.sending _).len, (h.sending _).cfg]; exact hroom)] at hstep
    exact (stepMany_succ_of_step hstep _).trans hrun

/-- The bytes of a list add up to its sum. -/
theorem frameSum_bytesAt_append (bs later : List Byte) :
    frameSum (bytesAt (bs ++ later)) bs.length = (bs.map BitVec.toNat).sum := by
  induction bs using List.reverseRecOn generalizing later with
  | nil => rfl
  | append_singleton bs b ih =>
    rw [List.length_append, List.length_singleton, frameSum_succ, List.append_assoc, ih]
    simp [bytesAt]

/-- A frame that carries the checksum of its bytes passes the checksum stage (R68, R69). -/
theorem frameVerdict_of_checksumBytes {c : Config} {bs : List Byte} {sum : Nat} (hsum : (bs.map BitVec.toNat).sum = sum)
    (hlen : c.h ≤ bs.length) {v : Verdict}
    (hv : v = frameVerdict c (bs.length + 2) false (bytesAt (bs ++ Asm.checksumBytes sum))) :
    v.calcSum = v.expect ∧ v.calcSum = BitVec.ofNat 16 (sum % 65536) ∧
      (v.result = .ok ∨ v.result = .invalidCount) := by
  have hlow : bytesAt (bs ++ Asm.checksumBytes sum) bs.length = BitVec.ofNat 8 (sum % 65536 % 256) := by
    simp [bytesAt, Asm.checksumBytes]
  have hhigh : bytesAt (bs ++ Asm.checksumBytes sum) (bs.length + 1) = BitVec.ofNat 8 (sum % 65536 / 256) := by
    simp [bytesAt, Asm.checksumBytes]
  have hcarried : (bytesAt (bs ++ Asm.checksumBytes sum) bs.length).toNat +
      256 * (bytesAt (bs ++ Asm.checksumBytes sum) (bs.length + 1)).toNat = sum % 65536 := by
    rw [hlow, hhigh, BitVec.toNat_ofNat, BitVec.toNat_ofNat]
    omega
  dsimp only [frameVerdict] at hv
  rw [if_neg Bool.false_ne_true, if_neg (by omega), Nat.add_sub_cancel, show bs.length + 2 - 1 = bs.length + 1 from rfl,
    frameSum_bytesAt_append, hsum, hcarried, if_neg (not_not_intro rfl)] at hv
  split at hv <;> subst hv <;> simp

/-- The words of a `LOADF` closed with `PUSHCS` and a `DECODE`: the frame is the bytes and their checksum. -/
theorem assembleLines_checkedFrame (bs : List Byte) :
    Asm.assembleLines [.command (.loadF bs), .command .pushCs, .command (.instr .decode)] =
      .ok (encode .clear :: (Asm.pushWords (bs ++ Asm.checksumBytes (bs.map BitVec.toNat).sum) ++
        [encode .decode])) := by
  obtain ⟨sum, hcs⟩ := Asm.assembleFrom_pushCs (Asm.clear_not_mem_pushAll bs) [.command (.instr .decode)]
  rw [Asm.assembleLines, Asm.assembleFrom_loadF, hcs, Asm.assembleFrom_command rfl, Asm.map_pushedValue_pushAll]
  simp [Asm.assembleFrom, Except.map, show encode .clear = 0x0100#16 from rfl]

/-- `CLEAR`, `PUSH`es of a frame that fits and `DECODE` leave the frame in the buffer with its verdict, whatever the
block did before. -/
theorem stepMany_frame {s : State} {bs : List Byte} (hwf : s.cfg.wf = true) (hfit : bs.length ≤ s.cfg.ncap) :
    ∃ t, stepMany (bs.length + 2)
        (sending (encode .clear :: (Asm.pushWords bs ++ [encode .decode])) s) = .next t ∧
      t.len.toNat = bs.length ∧ t.verdict = frameVerdict s.cfg bs.length false (bytesAt bs) := by
  obtain ⟨t, hrun, ht⟩ :=
    (loaded_clear s).stepMany_pushes hwf [encode .decode] bs (by rwa [List.length_nil, Nat.zero_add])
  have hclear := step_sending (i := .clear) (words := Asm.pushWords bs ++ [encode .decode]) hwf
  obtain ⟨hcfg, -, hovf, hlen, hholds⟩ := ht.sending []
  have hdecode := (step_sending (i := .decode) (words := []) (ht.cfg ▸ hwf)).trans
    (execDecode_of_holds (hcfg ▸ hwf) hholds)
  rw [hcfg, hlen, hovf] at hdecode
  exact ⟨_, (stepMany_succ_of_step hclear _).trans ((stepMany_add hrun 1).trans (stepMany_succ_of_step hdecode 0)),
    hlen, rfl⟩

/-- Settles O52: the assembled words are `CLEAR`, `PUSH`es of the bytes and their checksum, and `DECODE`, and a frame
that carries its checksum passes. -/
theorem assembledChecksumPasses : Obligations.AssembledChecksumPasses := by
  intro s bs hwf hheader hfit
  have hbytes : (bs ++ Asm.checksumBytes (bs.map BitVec.toNat).sum).length = bs.length + 2 := List.length_append
  obtain ⟨t, hrun, hlen, hv⟩ := stepMany_frame hwf (hbytes.trans_le hfit)
  rw [hbytes] at hrun hlen hv
  refine ⟨_, t, assembleLines_checkedFrame bs, ?_, hlen, frameVerdict_of_checksumBytes rfl hheader hv⟩
  rw [List.length_cons, List.length_append, Asm.length_pushWords, hbytes]
  exact hrun

end Sys2Proof.Machine

/-! ## Frame load (40_frame_load.md)

What each command does to the frame in the buffer: `CLEAR` empties it, a `PUSH` that is accepted appends to it, and no
other command touches it. With these, the bytes a load run leaves, and the frozen frame. -/

namespace Sys2Proof.Machine

/-! ### `CLEAR` (R61) -/

/-- At its reset value `STATUS` is 0. -/
theorem status_clearState (s : State) : status (clearState s) = 0x0000#16 :=
  (status_congr (t := State.reset) rfl rfl rfl rfl rfl rfl).trans (by decide)

/-! ### What a command does to the frame -/

/-- A command empties the frame as `CLEAR`, appends a byte to it as a `PUSH` in `LOAD` with room, or leaves `BUF` and
`LEN`; the last kind never leaves `DONE` (R61, R62). -/
theorem exec_frame_cases {i : Instr} {s t : State} (h : exec i s = .next t) :
    (i = .clear ∧ t = accept (clearState s)) ∨
    (∃ b, i = .push b ∧ s.phase = .load ∧ s.len.toNat < s.cfg.ncap ∧
      t = accept { s with buf := Memory.write s.buf s.len.toNat b, len := s.len + 1#16 }) ∨
    (t.buf = s.buf ∧ t.len = s.len ∧ (s.phase = .done → t.phase = .done)) := by
  obtain ⟨-, rfl⟩ | hclear | ⟨b, rfl, hpush⟩ | ⟨-, hdecode⟩ | ⟨-, hnext⟩ | ⟨-, rfl⟩ | ⟨f, -, hrdf⟩ | ⟨g, -, rfl⟩ :=
    exec_cases h
  · exact .inr (.inr ⟨rfl, rfl, id⟩)
  · exact .inl hclear
  · obtain ⟨-, rfl⟩ | ⟨-, -, rfl⟩ | happend := execPush_cases hpush
    · exact .inr (.inr ⟨rfl, rfl, id⟩)
    · exact .inr (.inr ⟨rfl, rfl, id⟩)
    · exact .inr (.inl ⟨b, rfl, happend⟩)
  · obtain ⟨v, -, rfl⟩ := execDecode_next hdecode
    exact .inr (.inr ⟨rfl, rfl, fun _ => rfl⟩)
  · rw [(execNext_frame hnext).1]
    exact .inr (.inr ⟨rfl, rfl, id⟩)
  · exact .inr (.inr ⟨rfl, rfl, id⟩)
  · rw [(execRdf_frame hrdf).1]
    exact .inr (.inr ⟨rfl, rfl, id⟩)
  · exact .inr (.inr ⟨rfl, rfl, id⟩)

/-- In `DONE` every command but `CLEAR` leaves the frame frozen (R47). -/
theorem exec_frozen {i : Instr} {s t : State} (h : exec i s = .next t) (hp : s.phase = .done) (hi : i ≠ .clear) :
    t.buf = s.buf ∧ t.len = s.len ∧ t.phase = .done := by
  obtain ⟨hclear, -⟩ | ⟨b, -, hload, -⟩ | ⟨hbuf, hlen, hdone⟩ := exec_frame_cases h
  · exact absurd hclear hi
  · cases hp.symm.trans hload
  · exact ⟨hbuf, hlen, hdone hp⟩

/-- A command that is rejected leaves the frame. -/
theorem exec_rejected_frame {i : Instr} {s t : State} (h : exec i s = .next t) (hr : rejected t) :
    t.buf = s.buf ∧ t.len = s.len := by
  obtain ⟨-, rfl⟩ | ⟨b, -, -, -, rfl⟩ | ⟨hbuf, hlen, -⟩ := exec_frame_cases h
  · exact absurd hr (not_rejected_accept _)
  · exact absurd hr (not_rejected_accept _)
  · exact ⟨hbuf, hlen⟩

/-- A `PUSH` writes at most the cell at `LEN`, `LEN`, `OVF` and `REJ`; accepted, it leaves the last two (R62). -/
theorem execPush_frame {b : Byte} {s t : State} (h : execPush b s = .next t) :
    t = { s with buf := t.buf, len := t.len, ovf := t.ovf, rej := t.rej, resp := t.resp } ∧
      (∀ a, a ≠ s.len.toNat → Memory.read t.buf a = Memory.read s.buf a) ∧
      (acked t → t.ovf = s.ovf ∧ t.rej = s.rej) := by
  obtain ⟨-, rfl⟩ | ⟨-, -, rfl⟩ | ⟨-, -, rfl⟩ := execPush_cases h
  · exact ⟨reject_of_ne_illegal (by decide) s, fun _ _ => rfl, fun ha => absurd ha (not_acked_reject _ _)⟩
  · exact ⟨reject_of_ne_illegal (by decide) { s with ovf := true }, fun _ _ => rfl,
      fun ha => absurd ha (not_acked_reject _ _)⟩
  · exact ⟨rfl, fun a ha => Memory.read_write_other _ b ha, fun _ => ⟨rfl, rfl⟩⟩

/-! ### The load loop (R63) -/

/-- The frame in the buffer is exactly these bytes, in whatever phase the block is. -/
structure HoldsBytes (bs : List Byte) (s : State) : Prop where
  len : s.len.toNat = bs.length
  holds : HoldsFrame s (bytesAt bs)

theorem HoldsBytes.congr {bs : List Byte} {s t : State} (h : HoldsBytes bs s) (hb : t.buf = s.buf)
    (hl : t.len = s.len) : HoldsBytes bs t :=
  ⟨by rw [hl, h.len], fun a ha => by rw [hb, h.holds a (hl ▸ ha)]⟩

theorem HoldsBytes.readByte {bs : List Byte} {s : State} (h : HoldsBytes bs s) {a : Nat} (ha : a < bs.length) :
    readByte s a = .ok bs[a] := by
  rw [readByte_of_holds h.holds (h.len ▸ ha), bytesAt, List.getD_eq_getElem _ _ ha]

theorem holdsBytes_clearState (s : State) : HoldsBytes [] (clearState s) :=
  ⟨(loaded_clear s).len, (loaded_clear s).holds⟩

/-- An accepted `PUSH` appends its byte, whether or not an earlier one overran. -/
theorem HoldsBytes.push {bs : List Byte} {s : State} (h : HoldsBytes bs s) (hwf : s.cfg.wf = true)
    (hroom : s.len.toNat < s.cfg.ncap) (b : Byte) :
    HoldsBytes (bs ++ [b]) (accept { s with buf := Memory.write s.buf s.len.toNat b, len := s.len + 1#16 }) := by
  have hload : Loaded s.cfg bs { s with phase := .load, ovf := false } := ⟨rfl, rfl, rfl, h.len, h.holds⟩
  have hnext := hload.push hwf (h.len ▸ hroom) b
  exact ⟨hnext.len, hnext.holds⟩

theorem HoldsBytes.step_pushed {bs : List Byte} {s t : State} {w : Word} {rest : List HostInput} {b : Byte}
    (h : HoldsBytes bs s) (hp : s.port = .command w :: rest) (hd : decode w = .ok (.push b)) (ht : step s = .next t)
    (ha : acked t) : HoldsBytes (bs ++ [b]) t := by
  obtain ⟨hwf, -⟩ := step_cases ht
  rw [step_command hwf hp, runWord_of_decode hd] at ht
  obtain ⟨-, rfl⟩ | ⟨-, -, rfl⟩ | ⟨-, hroom, rfl⟩ := execPush_cases ht
  · exact absurd ha (not_acked_reject _ _)
  · exact absurd ha (not_acked_reject _ _)
  · exact HoldsBytes.push (s := { s with port := rest }) (h.congr rfl rfl) hwf hroom b

/-- The steps a load run may have between its `PUSH`es leave the frame. -/
theorem step_between_frame {s t : State} {w : Word} {rest : List HostInput} (hp : s.port = .command w :: rest)
    (ht : step s = .next t) (hw : decode w = .ok .nop ∨ (∃ g, decode w = .ok (.rdreg g)) ∨ rejected t) :
    t.buf = s.buf ∧ t.len = s.len := by
  obtain ⟨hwf, -⟩ := step_cases ht
  rw [step_command hwf hp] at ht
  obtain hnop | ⟨g, hrdreg⟩ | hr := hw
  · rw [runWord_of_decode hnop] at ht
    cases ht
    exact ⟨rfl, rfl⟩
  · rw [runWord_of_decode hrdreg] at ht
    cases ht
    exact ⟨rfl, rfl⟩
  · cases hd : decode w with
    | ok i =>
      rw [runWord_of_decode hd] at ht
      exact exec_rejected_frame (s := { s with port := rest }) ht hr
    | error r =>
      rw [runWord_of_decode_error hd] at ht
      cases ht
      exact ⟨rfl, rfl⟩

/-- A load run from an empty frame holds the bytes it pushed, in push order. -/
theorem LoadRun.holdsBytes {start t : State} {bs : List Byte} (hstart : HoldsBytes [] start)
    (hrun : LoadRun start bs t) : HoldsBytes bs t := by
  induction hrun with
  | start => exact hstart
  | pushed _ hp hd ht ha ih => exact ih.step_pushed hp hd ht ha
  | between _ hp ht hw ih =>
    obtain ⟨hbuf, hlen⟩ := step_between_frame hp ht hw
    exact ih.congr hbuf hlen

/-- A step that takes the reset input or `CLEAR` leaves an empty frame. -/
theorem step_starts_frame {s t : State} (ht : step s = .next t)
    (hp : (∃ rest, s.port = .reset :: rest) ∨ ∃ w rest, s.port = .command w :: rest ∧ decode w = .ok .clear) :
    HoldsBytes [] t := by
  obtain ⟨hwf, -⟩ := step_cases ht
  obtain ⟨rest, hp⟩ | ⟨w, rest, hp, hd⟩ := hp
  · rw [step_of_wf hwf, takeInput, hp] at ht
    cases ht
    exact holdsBytes_clearState _
  · rw [step_command hwf hp, runWord_of_decode hd] at ht
    cases ht
    exact (holdsBytes_clearState { s with port := rest }).congr rfl rfl

/-! ### The obligations of the frame load -/

/-- Settles O16: the operand of form Z must be 0, and `NOP` only responds. -/
theorem nopRespondsStatus : Obligations.NopRespondsStatus := by
  refine ⟨rfl, fun _ => rfl, fun x hx => ?_⟩
  rw [decode, opcodeOf_append, operandOf_append]
  exact if_neg hx

/-- Settles O17: the cleared state is read off, and the three registers are those of `exec_ovf`, `exec_ill` and
`exec_frozen`. -/
theorem clearStartsANewFrame : Obligations.ClearStartsANewFrame := by
  refine ⟨rfl, fun s => ⟨_, rfl, rfl, rfl, ?_, status_clearState s, fun _ => rfl, rfl, rfl, rfl, rfl, rfl, rfl, rfl, rfl,
    rfl, rfl, rfl, rfl⟩, fun i s t h hleft => ?_⟩
  · rw [accept_resp, status_clearState]
  · by_contra hi
    obtain ⟨hs, ht⟩ | ⟨hs, ht⟩ | ⟨hs, ht⟩ := hleft
    · simp [exec_ovf h, hi, hs] at ht
    · simp [exec_ill h, hi, hs] at ht
    · obtain ⟨-, -, hdone⟩ := exec_frozen h hs hi
      cases hdone.symm.trans ht

/-- Settles O18: `PUSH` in each of its three cases, and a write read back. -/
theorem pushAppendsOrRejects : Obligations.PushAppendsOrRejects := by
  refine fun s b => ⟨rfl, fun hdone => ?_, fun hload hfull => ?_, fun hwf hload hroom => ⟨len_succ_toNat hwf hroom, ?_⟩⟩
  · refine (execPush_of_done hdone b).trans ?_
    simp [reject, respond]
  · refine (execPush_of_full hload hfull b).trans ?_
    simp [reject, respond]
  · exact ⟨_, execPush_of_room hload hroom b, Memory.read_write_same _ _ b,
      fun _ ha => Memory.read_write_other _ b ha⟩

/-- Settles O19, by induction on the load run, from the empty frame a `CLEAR` or a reset leaves. -/
theorem loadedFrameIsThePushedBytes : Obligations.LoadedFrameIsThePushedBytes := by
  intro s start t bs hstart hrun
  have hempty : HoldsBytes [] start := by
    obtain ⟨ht, hp⟩ | rfl := hstart
    · exact step_starts_frame ht hp
    · exact holdsBytes_clearState s
  have hbytes := LoadRun.holdsBytes hempty hrun
  exact ⟨hbytes.len, fun _ hi => hbytes.readByte hi⟩

/-- Settles O20: `NOP` and `CLEAR` by what they answer, `PUSH` by its frame, and by that of any rejected command. -/
theorem frameLoadCommandsKeepTheRest : Obligations.FrameLoadCommandsKeepTheRest := by
  refine ⟨fun s t h => ?_, fun s t h => ⟨exec_cfg h, exec_port h⟩, fun b s t h => ?_⟩
  · cases h
    rfl
  · obtain ⟨hrest, hcells, hacked⟩ := execPush_frame h
    exact ⟨hrest, hcells, exec_rejected_frame h, hacked⟩

/-- Settles O44: the idle step and an illegal word leave the frame and the phase, and so does any command but `CLEAR` in
`DONE`. -/
theorem frozenFrameStaysUntilClear : Obligations.FrozenFrameStaysUntilClear := by
  intro s t hdone h hreset hclear
  obtain ⟨-, ⟨-, rfl⟩ | ⟨rest, hp, -⟩ | ⟨w, rest, i, hp, hd, hexec⟩ | ⟨w, rest, r, -, -, rfl⟩⟩ := step_cases h
  · exact ⟨rfl, rfl, hdone⟩
  · exact absurd hp (hreset rest)
  · exact exec_frozen (s := { s with port := rest }) hexec hdone fun hi => hclear w rest hp (hi ▸ hd)
  · exact ⟨rfl, rfl, hdone⟩

end Sys2Proof.Machine

/-! ## Validation (41_validate.md)

`DECODE` and its stages: what each stage reads, what makes it fail, and what the checksum can and cannot tell apart;
and the frozen frame from which a second `DECODE` and every `RDF` read the same again. -/

namespace Sys2Proof.Machine

/-! ### The stages of `DECODE` (R66 to R72) -/

theorem validate_of_truncated {s : State} (hovf : s.ovf = false) (hlen : s.len.toNat < s.cfg.h + 2) :
    validate s = .ok (Verdict.only .truncated) := by
  rw [validate, if_neg (by simp [hovf]), if_pos hlen]

/-- Where the two checksums differ, `DECODE` stops before it reads the header. -/
theorem validate_of_mismatch {s : State} {sum carried : Word} (hovf : s.ovf = false)
    (hlen : s.cfg.h + 2 ≤ s.len.toNat) (hsum : csum16 s = .ok sum) (hcarried : carriedChecksum s = .ok carried)
    (hne : sum ≠ carried) : validate s = .ok ⟨.csumMismatch, 0#16, 0#16, sum, carried, 0#16⟩ := by
  rw [validate, if_neg (by simp [hovf]), if_neg (Nat.not_lt.mpr hlen), hsum, hcarried]
  exact if_pos hne

/-- A chain of reads that answers has an answer at its first link. -/
theorem exists_of_bind_eq_ok {α β : Type} {x : Except Fault α} {k : α → Except Fault β} {r : β}
    (h : x >>= k = .ok r) : ∃ a, x = .ok a ∧ k a = .ok r := by
  cases x with
  | error e => cases h
  | ok a => exact ⟨a, rfl, h⟩

theorem countStage_checksums (sum carried : Word) (raw maxf : Nat) :
    (countStage sum carried raw maxf).calcSum = sum ∧ (countStage sum carried raw maxf).expect = carried := by
  unfold countStage
  split <;> exact ⟨rfl, rfl⟩

/-- A verdict of `OK` has passed the first three stages: the frame is whole and carries its own checksum. -/
theorem validate_ok {s : State} {v : Verdict} (h : validate s = .ok v) (hok : v.result = .ok) :
    s.ovf = false ∧ s.cfg.h + 2 ≤ s.len.toNat ∧ csum16 s = .ok v.calcSum ∧ carriedChecksum s = .ok v.expect ∧
      v.calcSum = v.expect := by
  unfold validate at h
  split at h
  · cases h
    cases hok
  split at h
  · cases h
    cases hok
  rename_i hovf htrunc
  obtain ⟨sum, hsum, h⟩ := exists_of_bind_eq_ok h
  obtain ⟨carried, hcarried, h⟩ := exists_of_bind_eq_ok h
  split at h
  · cases h
    cases hok
  rename_i hsame
  obtain ⟨raw, -, h⟩ := exists_of_bind_eq_ok h
  cases h
  obtain ⟨hcalc, hexpect⟩ := countStage_checksums sum carried raw (maxFaces s.cfg s.len.toNat)
  rw [hcalc, hexpect]
  exact ⟨by simpa using hovf, Nat.not_lt.mp htrunc, hsum, hcarried, not_not.mp hsame⟩

/-! ### What the checksum stage reads (R64, R68) -/

/-- A sum that is answered has read every byte it adds. -/
theorem readByte_of_sumBytes {s : State} {n m : Nat} (h : sumBytes s n = .ok m) {a : Nat} (ha : a < n) :
    ∃ b, readByte s a = .ok b := by
  induction n generalizing m with
  | zero => exact absurd ha (Nat.not_lt_zero a)
  | succ n ih =>
    obtain ⟨sum, hsum, h⟩ := exists_of_bind_eq_ok h
    obtain ⟨b, hb, -⟩ := exists_of_bind_eq_ok h
    rcases Nat.lt_succ_iff_lt_or_eq.mp ha with hlt | rfl
    · exact ih hsum hlt
    · exact ⟨b, hb⟩

/-- A little-endian number that is answered has read each of its bytes. -/
theorem readByte_of_readLE {s : State} {a w m : Nat} (h : readLE s a w = .ok m) {k : Nat} (hk : k < w) :
    ∃ b, readByte s (a + k) = .ok b := by
  induction w generalizing a m k with
  | zero => exact absurd hk (Nat.not_lt_zero k)
  | succ w ih =>
    obtain ⟨low, hlow, h⟩ := exists_of_bind_eq_ok h
    obtain ⟨high, hhigh, -⟩ := exists_of_bind_eq_ok h
    cases k with
    | zero => exact ⟨low, hlow⟩
    | succ k =>
      rw [Nat.add_comm k 1, ← Nat.add_assoc]
      exact ih hhigh (Nat.lt_of_succ_lt_succ hk)

/-- The two checksums together read every byte of the frame. -/
theorem readByte_of_checksums {s : State} {sum carried : Word} (hsum : csum16 s = .ok sum)
    (hcarried : carriedChecksum s = .ok carried) {a : Nat} (ha : a < s.len.toNat) : ∃ b, readByte s a = .ok b := by
  obtain ⟨n, hn, -⟩ := exists_of_bind_eq_ok hsum
  obtain ⟨v, hv, -⟩ := exists_of_bind_eq_ok hcarried
  by_cases hlt : a < s.len.toNat - Config.checksumWidth
  · exact readByte_of_sumBytes hn hlt
  · have hb := readByte_of_readLE hv (k := a - (s.len.toNat - Config.checksumWidth)) (by omega)
    rwa [Nat.add_sub_of_le (Nat.not_lt.mp hlt)] at hb

/-- A block in which every byte of the frame can be read holds the frame of its own bytes. -/
theorem HoldsFrame.of_readByte {s : State} (h : ∀ a, a < s.len.toNat → ∃ b, readByte s a = .ok b) :
    HoldsFrame s fun a => (Memory.read s.buf a).getD 0 := by
  intro a ha
  obtain ⟨b, hb⟩ := h a ha
  obtain ⟨-, hb⟩ := readByte_ok_iff.mp hb
  simp [hb]

/-- The checksum registers, and whether the checksum stage fails, depend on the byte sum mod 65536 and the last two
bytes only. -/
theorem frameVerdict_checksum_congr {c : Config} {len : Nat} {ovf : Bool} {f g : Nat → Byte}
    (hsum : frameSum f (len - 2) % 65536 = frameSum g (len - 2) % 65536) (hlow : f (len - 2) = g (len - 2))
    (hhigh : f (len - 1) = g (len - 1)) :
    (frameVerdict c len ovf g).calcSum = (frameVerdict c len ovf f).calcSum ∧
      (frameVerdict c len ovf g).expect = (frameVerdict c len ovf f).expect ∧
      ((frameVerdict c len ovf g).result = .csumMismatch ↔ (frameVerdict c len ovf f).result = .csumMismatch) := by
  dsimp only [frameVerdict]
  rw [hsum, hlow, hhigh]
  split
  · exact ⟨rfl, rfl, Iff.rfl⟩
  split
  · exact ⟨rfl, rfl, Iff.rfl⟩
  split
  · exact ⟨rfl, rfl, Iff.rfl⟩
  · split <;> split <;> simp

/-! ### The wrapping accumulator (R64) -/

/-- Adding bytes to a 16-bit accumulator adds their natural-number sum, wrapped. -/
theorem foldl_add_setWidth (f : Nat → Byte) (order : List Nat) (acc : Word) :
    order.foldl (fun acc i => acc + (f i).setWidth 16) acc =
      acc + BitVec.ofNat 16 (order.map fun i => (f i).toNat).sum := by
  induction order generalizing acc with
  | nil => simp
  | cons i order ih =>
    rw [List.foldl_cons, ih, List.map_cons, List.sum_cons, BitVec.ofNat_add, BitVec.add_assoc, BitVec.ofNat_toNat]

/-- The order of the addresses does not change the byte sum. -/
theorem sum_map_of_perm_range {f : Nat → Byte} {n : Nat} {order : List Nat} (h : order.Perm (List.range n)) :
    (order.map fun i => (f i).toNat).sum = frameSum f n :=
  (h.map _).sum_eq

/-! ### A flipped bit (R74) -/

/-- `n` lies `d` above or below `m`. -/
def OffBy (d m n : Nat) : Prop := n = m + d ∨ n + d = m

/-- Flipping bit `k` of a number moves it by `2 ^ k`. -/
theorem offBy_xor_two_pow (n k : Nat) : OffBy (2 ^ k) n (n ^^^ 2 ^ k) := by
  induction k generalizing n with
  | zero =>
    have hhalf : (n ^^^ 1) / 2 = n / 2 := by simp [Nat.xor_div_two]
    have hbit : (n ^^^ 1) % 2 = (n + 1) % 2 := Nat.xor_mod_two_eq
    rw [pow_zero]
    unfold OffBy
    omega
  | succ k ih =>
    have hhalf : (n ^^^ 2 ^ (k + 1)) / 2 = n / 2 ^^^ 2 ^ k := by simp [Nat.xor_div_two, pow_succ]
    have hbit : (n ^^^ 2 ^ (k + 1)) % 2 = n % 2 := by simp [Nat.xor_mod_two_eq, pow_succ]
    have hmoved := ih (n / 2)
    unfold OffBy at hmoved ⊢
    omega

theorem OffBy.add_right {d m n c : Nat} (h : OffBy d m n) : OffBy d (m + c) (n + c) := by
  unfold OffBy at h ⊢
  omega

/-- A high byte counts 256 times as much as a low one. -/
theorem OffBy.add_mul_left {k m n c : Nat} (h : OffBy (2 ^ k) m n) :
    OffBy (2 ^ (k + 8)) (c + 256 * m) (c + 256 * n) := by
  unfold OffBy at h ⊢
  rw [pow_add]
  omega

theorem offBy_flipped_byte (b : Byte) {k : Nat} (hk : k < 8) :
    OffBy (2 ^ k) b.toNat (b ^^^ (1#8 <<< k)).toNat := by
  rw [BitVec.toNat_xor, ← BitVec.twoPow_eq, BitVec.toNat_twoPow_of_lt hk]
  exact offBy_xor_two_pow _ _

/-- A byte outside the sum does not count. -/
theorem frameSum_update_of_le {f : Nat → Byte} {i n : Nat} (b : Byte) (hi : n ≤ i) :
    frameSum (Function.update f i b) n = frameSum f n :=
  Finset.sum_congr rfl fun j hj => by
    rw [Function.update_of_ne (by have := Finset.mem_range.mp hj; omega)]

/-- A byte that moves takes the sum over it along. -/
theorem offBy_frameSum_update {f : Nat → Byte} {d i n : Nat} {b : Byte} (hi : i < n)
    (h : OffBy d (f i).toNat b.toNat) : OffBy d (frameSum f n) (frameSum (Function.update f i b) n) := by
  unfold OffBy at h ⊢
  induction n with
  | zero => exact absurd hi (Nat.not_lt_zero i)
  | succ n ih =>
    rw [frameSum_succ, frameSum_succ]
    rcases Nat.lt_succ_iff_lt_or_eq.mp hi with hlt | rfl
    · rw [Function.update_of_ne hlt.ne']
      have := ih hlt
      omega
    · rw [Function.update_self, frameSum_update_of_le b le_rfl]
      omega

/-- `y` lies `p` above or below `x`, on the circle of the 16-bit words. -/
def MovedBy (p x y : Word) : Prop := y = x + p ∨ y = x - p

theorem MovedBy.ne {p x y : Word} (h : MovedBy p x y) (hp : p ≠ 0#16) : y ≠ x := by
  obtain rfl | rfl := h
  · exact fun heq => hp (by simpa using heq)
  · exact fun heq => hp (by simpa using heq)

theorem movedBy_ofNat {d m n : Nat} (h : OffBy d m n) :
    MovedBy (BitVec.ofNat 16 d) (BitVec.ofNat 16 m) (BitVec.ofNat 16 n) := by
  obtain rfl | rfl := h
  · exact .inl (BitVec.ofNat_add _ _)
  · rw [BitVec.ofNat_add]
    exact .inr (BitVec.add_sub_cancel _ _).symm

theorem ofNat_two_pow (k : Nat) : BitVec.ofNat 16 (2 ^ k) = 1#16 <<< k := by
  rw [← BitVec.twoPow_eq]
  exact BitVec.eq_of_toNat_eq (by rw [BitVec.toNat_ofNat, BitVec.toNat_twoPow])

theorem one_shiftLeft_ne_zero {k : Nat} (hk : k < 16) : 1#16 <<< k ≠ 0#16 := by
  rw [← BitVec.twoPow_eq, Ne, ← BitVec.toNat_inj, BitVec.toNat_twoPow_of_lt hk]
  exact (Nat.two_pow_pos k).ne'

/-- A cell written below `LEN` changes one byte of the frame. -/
theorem HoldsFrame.write {s : State} {f : Nat → Byte} (h : HoldsFrame s f) (i : Nat) (b : Byte) :
    HoldsFrame { s with buf := Memory.write s.buf i b } (Function.update f i b) := by
  intro a ha
  by_cases hai : a = i
  · subst hai
    rw [Function.update_self]
    exact Memory.read_write_same _ _ b
  · rw [Function.update_of_ne hai, ← h a ha]
    exact Memory.read_write_other _ b hai

/-- The checksum of a held frame as its byte sum, wrapped. -/
theorem csum16_of_holds_wrapped {s : State} {f : Nat → Byte} (h : HoldsFrame s f) :
    csum16 s = .ok (BitVec.ofNat 16 (frameSum f (s.len.toNat - 2))) := by
  rw [csum16_of_holds h]
  exact congrArg _ (BitVec.eq_of_toNat_eq (by simp))

/-- A byte of the frame that moves by `2 ^ k` moves exactly one of the two checksums: the computed one by `2 ^ k`, or
the carried one by `2 ^ k` or `2 ^ (k + 8)`. -/
theorem checksums_of_moved_byte {s : State} {i k : Nat} {b b' : Byte} {sum carried : Word} (hsum : csum16 s = .ok sum)
    (hcarried : carriedChecksum s = .ok carried) (hlen : 2 ≤ s.len.toNat) (hi : i < s.len.toNat)
    (hb : Memory.read s.buf i = some b) (hmove : OffBy (2 ^ k) b.toNat b'.toNat) :
    ∃ sum' carried', csum16 { s with buf := Memory.write s.buf i b' } = .ok sum' ∧
      carriedChecksum { s with buf := Memory.write s.buf i b' } = .ok carried' ∧
      (i < s.len.toNat - 2 → carried' = carried ∧ MovedBy (1#16 <<< k) sum sum') ∧
      (i = s.len.toNat - 2 → sum' = sum ∧ MovedBy (1#16 <<< k) carried carried') ∧
      (i = s.len.toNat - 1 → sum' = sum ∧ MovedBy (1#16 <<< (k + 8)) carried carried') := by
  obtain ⟨f, hf⟩ : ∃ f, HoldsFrame s f :=
    ⟨_, HoldsFrame.of_readByte fun _ ha => readByte_of_checksums hsum hcarried ha⟩
  have hfi : f i = b := Option.some.inj ((hf i hi).symm.trans hb)
  cases (csum16_of_holds_wrapped hf).symm.trans hsum
  cases (carriedChecksum_of_holds hf hlen).symm.trans hcarried
  have hsum' := csum16_of_holds_wrapped (hf.write i b')
  have hcarried' := carriedChecksum_of_holds (hf.write i b') hlen
  dsimp only at hsum' hcarried'
  refine ⟨_, _, hsum', hcarried', ?_, ?_, ?_⟩
  · intro hlt
    rw [Function.update_of_ne (by omega), Function.update_of_ne (by omega), ← ofNat_two_pow]
    exact ⟨rfl, movedBy_ofNat (offBy_frameSum_update hlt (hfi ▸ hmove))⟩
  · rintro rfl
    rw [frameSum_update_of_le b' le_rfl, Function.update_self, Function.update_of_ne (by omega), hfi, ← ofNat_two_pow]
    exact ⟨rfl, movedBy_ofNat hmove.add_right⟩
  · rintro rfl
    rw [frameSum_update_of_le b' (by omega), Function.update_self, Function.update_of_ne (by omega), hfi,
      ← ofNat_two_pow]
    exact ⟨rfl, movedBy_ofNat hmove.add_mul_left⟩

/-! ### The frozen frame between two `DECODE`s (R47, R73) -/

/-- `t` is frozen with the frame of `s`. -/
structure FrozenAs (s t : State) : Prop where
  cfg : t.cfg = s.cfg
  buf : t.buf = s.buf
  len : t.len = s.len
  ovf : t.ovf = s.ovf
  phase : t.phase = .done

/-- What the host has still to send does not matter. -/
theorem FrozenAs.of_sending {s t : State} {words : List Word} (h : FrozenAs (sending words s) t) : FrozenAs s t :=
  ⟨h.cfg, h.buf, h.len, h.ovf, h.phase⟩

theorem FrozenAs.trans {s t u : State} (h : FrozenAs s t) (h' : FrozenAs t u) : FrozenAs s u :=
  ⟨h'.cfg.trans h.cfg, h'.buf.trans h.buf, h'.len.trans h.len, h'.ovf.trans h.ovf, h'.phase⟩

/-- A second `DECODE` of the frozen frame computes the same registers. -/
theorem FrozenAs.validate_eq {s t : State} (h : FrozenAs s t) : validate t = validate s :=
  validate_congr h.cfg h.buf h.len h.ovf

theorem execDecode_frozenAs {s t : State} (h : execDecode s = .next t) : FrozenAs s t := by
  obtain ⟨v, -, rfl⟩ := execDecode_next h
  exact ⟨rfl, rfl, rfl, rfl, rfl⟩

/-- In `DONE` every word but `CLEAR`, illegal ones too, leaves the frame frozen. -/
theorem runWord_frozenAs {w : Word} {s t : State} (h : runWord w s = .next t) (hp : s.phase = .done)
    (hw : decode w ≠ .ok .clear) : FrozenAs s t ∧ t.port = s.port := by
  cases hd : decode w with
  | error r =>
    rw [runWord_of_decode_error hd] at h
    cases h
    exact ⟨⟨rfl, rfl, rfl, rfl, hp⟩, rfl⟩
  | ok i =>
    rw [runWord_of_decode hd] at h
    have hi : i ≠ .clear := fun hi => hw (hi ▸ hd)
    obtain ⟨hbuf, hlen, hphase⟩ := exec_frozen h hp hi
    have hovf : t.ovf = s.ovf := by simp [exec_ovf h, hi, hp]
    exact ⟨⟨exec_cfg h, hbuf, hlen, hovf, hphase⟩, exec_port h⟩

theorem sending_of_port {s : State} {words : List Word} (h : s.port = words.map HostInput.command) :
    sending words s = s := by
  rw [sending, ← h]

theorem stepMany_frozenAs {words : List Word} (hwords : ∀ w ∈ words, decode w ≠ .ok .clear) {s t : State}
    (hp : s.phase = .done) (h : stepMany words.length (sending words s) = .next t) : FrozenAs s t := by
  induction words generalizing s with
  | nil =>
    cases h
    exact ⟨rfl, rfl, rfl, rfl, hp⟩
  | cons w words ih =>
    rw [List.forall_mem_cons] at hwords
    obtain ⟨hw, hwords⟩ := hwords
    cases hs : step (sending (w :: words) s) with
    | fault f => simp [stepMany, hs] at h
    | refused r => simp [stepMany, hs] at h
    | next u =>
      rw [List.length_cons, stepMany_succ_of_step hs] at h
      obtain ⟨hwf, -⟩ := step_cases hs
      have hw' : runWord w (sending words s) = .next u := (step_command hwf rfl).symm.trans hs
      obtain ⟨hu, hport⟩ := runWord_frozenAs hw' hp hw
      exact hu.of_sending.trans (ih hwords hu.phase (by rwa [sending_of_port hport]))

/-! ### What an accepted `RDF` reads (R84) -/

theorem readByte_congr_of_read {s t : State} {a : Nat} (hl : s.len = t.len)
    (hr : Memory.read s.buf a = Memory.read t.buf a) : readByte s a = readByte t a := by
  rw [readByte, readByte, hl, hr]

/-- A little-endian number depends on its own bytes only. -/
theorem readLE_congr_of_bytes {s t : State} {a w : Nat} (h : ∀ k, k < w → readByte s (a + k) = readByte t (a + k)) :
    readLE s a w = readLE t a w := by
  induction w generalizing a with
  | zero => rfl
  | succ w ih =>
    have hlow : readByte s a = readByte t a := h 0 (Nat.succ_pos w)
    have hhigh : readLE s (a + 1) w = readLE t (a + 1) w := ih fun k hk => by
      rw [Nat.add_right_comm]
      exact h (k + 1) (Nat.succ_lt_succ hk)
    rw [readLE, readLE, hlow, hhigh]

/-- A field reads no byte outside `[lo, hi)` where its bytes lie there. -/
theorem fieldValue_withBuf {s : State} {m : Memory} {i lo hi : Nat} {fld : Field}
    (hlo : lo ≤ slotBase s.cfg i + fieldOffset s.cfg fld)
    (hhi : slotBase s.cfg i + fieldOffset s.cfg fld + fieldWidth s.cfg fld ≤ hi)
    (hm : ∀ a, lo ≤ a → a < hi → Memory.read m a = Memory.read s.buf a) :
    fieldValue { s with buf := m } i fld = fieldValue s i fld := by
  have hraw : fieldRaw { s with buf := m } i fld = fieldRaw s i fld :=
    readLE_congr_of_bytes fun k hk =>
      readByte_congr_of_read rfl (hm _ (Nat.le_add_right_of_le hlo) ((Nat.add_lt_add_left hk _).trans_le hhi))
  rw [fieldValue, hraw]
  rfl

/-- In a state of the invariant every field of the current slot lies between the header and the checksum. -/
theorem State.Inv.field_in_frame {s : State} (h : s.Inv) (ha : avail s = true) (fld : Field) :
    s.cfg.h ≤ slotBase s.cfg s.idx.toNat + fieldOffset s.cfg fld ∧
      slotBase s.cfg s.idx.toNat + fieldOffset s.cfg fld + fieldWidth s.cfg fld ≤ s.len.toNat - 2 := by
  obtain ⟨hok, -⟩ := (avail_iff s).mp ha
  have hslot := slot_end_le (h.verdict_of_ok hok (HoldsFrame.of_filled h.filled)) ha
  have hfit := fieldOffset_add_fieldWidth_le h.cfgWf fld
  rw [Nat.succ_mul] at hslot
  unfold slotBase
  exact ⟨by omega, by omega⟩

/-! ### The obligations of validation -/

/-- Settles O21: `execDecode_of_holds` is the statement with the updates of the state named. -/
theorem decodeFollowsItsStages : Obligations.DecodeFollowsItsStages :=
  ⟨rfl, fun _ _ hwf h => execDecode_of_holds hwf h⟩

/-- Settles O22: the first stage of `DECODE`, and the invariant with the capacity of R5. -/
theorem overrunStageReadsNoByte : Obligations.OverrunStageReadsNoByte := by
  refine ⟨fun s hovf => execDecode_of_validate (validate_of_ovf hovf), fun s h hovf => ?_⟩
  have hfull := h.ovfFull hovf
  obtain ⟨hcap, -⟩ := s.cfg.wf_iff.mp h.cfgWf
  obtain ⟨hfit, -⟩ := s.cfg.capacityOk_iff.mp hcap
  exact ⟨hfull, by omega⟩

/-- Settles O23: the second stage of `DECODE`. -/
theorem lengthStageReadsNoByte : Obligations.LengthStageReadsNoByte :=
  fun _ hovf hlen => execDecode_of_validate (validate_of_truncated hovf hlen)

/-- Settles O24: the accumulator holds the wrapped natural-number sum, which no order changes. -/
theorem accumulatorGivesTheModularSum : Obligations.AccumulatorGivesTheModularSum := by
  refine fun s f h _ => ⟨csum16_of_holds h, fun order horder => ?_⟩
  rw [foldl_add_setWidth, sum_map_of_perm_range horder, BitVec.zero_add]
  exact csum16_of_holds_wrapped h

/-- Settles O27: the first `DECODE` freezes the frame, the words between leave it frozen, and the second computes from
the same frame. -/
theorem decodeIsIdempotent : Obligations.DecodeIsIdempotent := by
  intro s t u words ht hwords hu
  have hst := execDecode_frozenAs ht
  have htu := stepMany_frozenAs (fun w hw => (hwords w hw).1) hst.phase hu
  obtain ⟨v, hv, rfl⟩ := execDecode_next ht
  exact ⟨_, execDecode_of_validate ((hst.trans htu).validate_eq.trans hv), rfl, rfl, rfl⟩

/-- Settles O28: the flip moves one of two checksums that were equal, by a distance that is not 0 mod 65536. -/
theorem singleBitFlipIsAlwaysDetected : Obligations.SingleBitFlipIsAlwaysDetected := by
  intro s t i k b ht hok hi hk hb
  obtain ⟨v, hv, rfl⟩ := execDecode_next ht
  obtain ⟨hovf, hlen, hsum, hcarried, hsame⟩ := validate_ok hv hok
  obtain ⟨sum', carried', hsum', hcarried', hbody, hlow, hhigh⟩ :=
    checksums_of_moved_byte hsum hcarried (by omega) hi hb (offBy_flipped_byte b hk)
  have hne : sum' ≠ carried' := by
    have hplaces : i < s.len.toNat - 2 ∨ i = s.len.toNat - 2 ∨ i = s.len.toNat - 1 := by omega
    obtain hplace | hplace | hplace := hplaces
    · obtain ⟨rfl, hmoved⟩ := hbody hplace
      exact hsame ▸ hmoved.ne (one_shiftLeft_ne_zero (by omega))
    · obtain ⟨rfl, hmoved⟩ := hlow hplace
      exact hsame ▸ (hmoved.ne (one_shiftLeft_ne_zero (by omega))).symm
    · obtain ⟨rfl, hmoved⟩ := hhigh hplace
      exact hsame ▸ (hmoved.ne (one_shiftLeft_ne_zero (by omega))).symm
  exact ⟨_, execDecode_of_validate (validate_of_mismatch hovf hlen hsum' hcarried' hne), rfl, hbody, hlow, hhigh⟩

/-- Settles O29: both frames have the registers of the plain-arithmetic reading, whose checksum part is shared. -/
theorem equalSumsPassTogether : Obligations.EqualSumsPassTogether := by
  intro s s' f g hwf hcfg hlen hovf hf hg hsum hlow hhigh
  have hs' := execDecode_of_holds (hcfg ▸ hwf) hg
  rw [hcfg, hlen, hovf] at hs'
  exact ⟨_, _, execDecode_of_holds hwf hf, hs', frameVerdict_checksum_congr hsum hlow hhigh⟩

/-- Settles O30, by what `DECODE` leaves when it answers. -/
theorem decodeKeepsTheRest : Obligations.DecodeKeepsTheRest := by
  intro s t h
  obtain ⟨v, -, rfl⟩ := execDecode_next h
  exact ⟨rfl, rfl, rfl, rfl, rfl, rfl, rfl, fun _ => rfl, rfl, rfl⟩

/-- Settles O32: `COUNT ≤ MAXF` keeps the current slot between the header and the checksum, and `RDF` reads its field's
bytes only. -/
theorem iteratorStaysInsideTheFrame : Obligations.IteratorStaysInsideTheFrame := by
  intro s fld h ha
  obtain ⟨hok, -⟩ := (avail_iff s).mp ha
  obtain ⟨hregs, -⟩ := decodeRegistersAgree s h
  obtain ⟨-, -, -, -, -, hcount, hmaxf⟩ := hregs hok
  obtain ⟨hlo, hhi⟩ := h.field_in_frame ha fld
  obtain ⟨t, ht⟩ := h.execRdf_answers fld
  obtain ⟨hna, -⟩ | ⟨-, v, hv, rfl⟩ := execRdf_cases ht
  · cases ha.symm.trans hna
  · exact ⟨hcount, hmaxf.trans_le (Nat.min_le_right _ _), hlo, hhi, v, ht, fun m hm =>
      execRdf_of_value (s := { s with buf := m }) ha ((fieldValue_withBuf hlo hhi hm).trans hv)⟩

/-- Settles O43: the decode registers hold `COUNT = 0` for every other result, and `RDF` asks `AVAIL` first. -/
theorem failedDecodeExposesNoRecord : Obligations.FailedDecodeExposesNoRecord := by
  intro s h hr
  obtain ⟨-, hcount, -⟩ := decodeRegistersAgree s h
  have hna : avail s = false := by simp [avail, hr]
  refine ⟨hcount hr, hna, fun f => (execRdf_of_not_avail hna f).trans ?_⟩
  simp [reject, respond]

end Sys2Proof.Machine

/-! ## The Face record iterator (42_iterate.md)

What is left of `RDF`, `NEXT` and `REWIND`: the reserved field selects, and the rejection of a legal command written as
an update of the state. -/

namespace Sys2Proof

/-- Opcode 0x06 is the row of `RDF`. -/
theorem decode_rdf_word (x : Byte) : decode (0x06#8 ++ x) = decodeF x := by
  rw [decode, opcodeOf_append, operandOf_append]
  rfl

/-- A select above 7 names no field and is refused (R53). -/
theorem decodeF_of_reserved {x : Byte} (h : 8 ≤ x.toNat) : decodeF x = .error .fieldSelect := by
  have hlegal : ¬ ∃ i, decodeF x = .ok i := by
    rw [exists_decodeF_iff]
    omega
  unfold decodeF at hlegal ⊢
  split
  · rename_i hhigh
    split
    · rename_i f hf
      exact absurd ⟨.rdf f, by rw [if_pos hhigh, hf]⟩ hlegal
    · rfl
  · rfl

end Sys2Proof

namespace Sys2Proof.Machine

/-- A rejection for any reason but an illegal word records the reason and answers `STATUS` after it (R87). -/
theorem reject_eq_of_ne_illegal {r : Reject} (hr : r ≠ .illegal) (s : State) :
    reject r s = { s with rej := r, resp := some ⟨false, status { s with rej := r }⟩ } := by
  simp [reject, respond, hr]

/-! ### The obligations of the iterator -/

/-- Settles O31: selects above 7 are refused by `decodeF`, and `RDF` follows `AVAIL`, with `execRdf_of_holds` for the
value. -/
theorem rdfReadsTheCurrentSlot : Obligations.RdfReadsTheCurrentSlot := by
  refine fun s fld f => ⟨rfl, fun x hx => ?_, fun ha => ?_, fun hwf ha hf hslot => ?_⟩
  · rw [decode_rdf_word, decodeF_of_reserved hx]
  · exact (execRdf_of_not_avail ha fld).trans (congrArg _ (reject_eq_of_ne_illegal (by decide) s))
  · exact execRdf_of_holds hwf hf ha hslot fld

/-- Settles O33: `NEXT` follows `AVAIL`, and `IDX < COUNT` leaves room for one more. -/
theorem nextAdvancesOneSlot : Obligations.NextAdvancesOneSlot := by
  refine ⟨rfl, fun s => ⟨fun ha => ?_, fun ha => ?_⟩⟩
  · obtain ⟨-, hroom⟩ := (avail_iff s).mp ha
    have hidx := idx_succ_toNat hroom
    exact ⟨execNext_of_avail ha, hidx, hidx.trans_le hroom⟩
  · exact (execNext_of_not_avail ha).trans (congrArg _ (reject_eq_of_ne_illegal (by decide) s))

/-- Settles O34: `REWIND` asks no condition; for a `RESULT` other than `OK` the invariant bounds `IDX` by a `COUNT`
of 0. -/
theorem rewindReturnsToSlotZero : Obligations.RewindReturnsToSlotZero := by
  refine ⟨rfl, fun _ => rfl, fun s h hr => ?_⟩
  obtain ⟨-, hcount, -⟩ := decodeRegistersAgree s h
  have hbound : s.idx ≤ s.count := h.idxBound
  rw [hcount hr] at hbound
  exact BitVec.le_zero_iff.mp hbound

end Sys2Proof.Machine

/-! ## Rejections and errors (60_exceptions.md)

The table of rejections as a function of the state and the decoded word, and what a command word does where the table
names a reason and where it names none; the stages of `DECODE` one by one, with what each failure records; and the
blocks that stand side by side. -/

namespace Sys2Proof.Machine

/-! ### The table of rejections (R88, R91) -/

/-- The reason the table of R88 names for a decoded word, `NONE` where it names none; the checks of `PUSH` in the order
of R91. -/
def rejectReason (s : State) : Except DecodeReject Instr → Reject
  | .error _ => .illegal
  | .ok (.push _) => if s.phase = .done then .frozen else if s.len.toNat = s.cfg.ncap then .overrun else .none
  | .ok (.rdf _) => if avail s = true then .none else .noFace
  | .ok .next => if avail s = true then .none else .iterEnd
  | .ok _ => .none

/-- The state a rejection for reason `r` leaves: `OVF <- 1` comes before `reject(3)` (R62, R87). -/
def rejectWith (r : Reject) (s : State) : State := reject r { s with ovf := s.ovf || decide (r = .overrun) }

theorem rejectWith_of_ne_overrun {r : Reject} (hr : r ≠ .overrun) (s : State) : rejectWith r s = reject r s := by
  simp [rejectWith, hr]

theorem rejectWith_overrun (s : State) : rejectWith .overrun s = reject .overrun { s with ovf := true } := by
  simp [rejectWith]

/-- A rejection writes `REJ` and the response, `ILL` for an illegal word and `OVF` for an overrun, and nothing else. -/
theorem rejectWith_eq (r : Reject) (s : State) :
    rejectWith r s =
      { s with rej := r, resp := some ⟨false, status (rejectWith r s)⟩,
               ill := if r = .illegal then true else s.ill,
               ovf := if r = .overrun then true else s.ovf } := by
  simp only [Bool.if_true_left, Bool.or_comm (decide _)]
  rfl

theorem rejected_rejectWith (r : Reject) (s : State) : rejected (rejectWith r s) := ⟨_, rfl⟩

theorem not_rejected_respond (data : Word) (s : State) : ¬ rejected (respond true data s) := by
  rintro ⟨data', h⟩
  cases h

/-- What a command word that decodes to `d` leaves, as far as its rejection goes: the rejection path for the reason of
the table, or, where the table names none, a state that was not rejected and holds the old `REJ`, or `NONE` after
`CLEAR`. -/
def FollowsTable (d : Except DecodeReject Instr) (s t : State) : Prop :=
  (rejectReason s d ≠ .none ∧ t = rejectWith (rejectReason s d) s) ∨
  (rejectReason s d = .none ∧ ¬ rejected t ∧ t.rej = if d = .ok .clear then .none else s.rej)

/-- A rejection for the reason of the table follows the table. -/
theorem FollowsTable.of_reason {d : Except DecodeReject Instr} {s : State} {r : Reject}
    (hd : rejectReason s d = r) (hr : r ≠ .none) : FollowsTable d s (rejectWith r s) := by
  subst hd
  exact .inl ⟨hr, rfl⟩

/-- A state that follows the table was rejected exactly if the table names a reason; it holds that reason, or the `REJ`
of an accepted command. -/
theorem FollowsTable.rejected_and_rej {d : Except DecodeReject Instr} {s t : State} (h : FollowsTable d s t) :
    (rejected t ↔ rejectReason s d ≠ .none) ∧ (rejectReason s d ≠ .none → t.rej = rejectReason s d) ∧
      (rejectReason s d = .none → t.rej = if d = .ok .clear then .none else s.rej) := by
  obtain ⟨hr, rfl⟩ | ⟨hr, hnot, hrej⟩ := h
  · exact ⟨⟨fun _ => hr, fun _ => rejected_rejectWith _ _⟩, fun _ => rfl, fun hnone => absurd hnone hr⟩
  · exact ⟨⟨fun ht => absurd ht hnot, fun hne => absurd hr hne⟩, fun hne => absurd hr hne, fun _ => hrej⟩

theorem execPush_followsTable {b : Byte} {s t : State} (h : execPush b s = .next t) :
    FollowsTable (.ok (.push b)) s t := by
  obtain ⟨hp, rfl⟩ | ⟨hp, hfull, rfl⟩ | ⟨hp, hroom, rfl⟩ := execPush_cases h
  · rw [← rejectWith_of_ne_overrun (by decide)]
    exact .of_reason (by simp [rejectReason, hp]) (by decide)
  · rw [← rejectWith_overrun]
    exact .of_reason (by simp [rejectReason, hp, hfull]) (by decide)
  · exact .inr ⟨by simp [rejectReason, hp, hroom.ne], not_rejected_accept _, rfl⟩

theorem execNext_followsTable {s t : State} (h : execNext s = .next t) : FollowsTable (.ok .next) s t := by
  obtain ⟨ha, rfl⟩ | ⟨ha, rfl⟩ := execNext_cases h
  · rw [← rejectWith_of_ne_overrun (by decide)]
    exact .of_reason (by simp [rejectReason, ha]) (by decide)
  · exact .inr ⟨by simp [rejectReason, ha], not_rejected_accept _, rfl⟩

theorem execRdf_followsTable {f : Field} {s t : State} (h : execRdf f s = .next t) :
    FollowsTable (.ok (.rdf f)) s t := by
  obtain ⟨ha, rfl⟩ | ⟨ha, v, -, rfl⟩ := execRdf_cases h
  · rw [← rejectWith_of_ne_overrun (by decide)]
    exact .of_reason (by simp [rejectReason, ha]) (by decide)
  · exact .inr ⟨by simp [rejectReason, ha], not_rejected_respond v s, rfl⟩

/-- Every command follows the table of rejections; those but `PUSH`, `NEXT` and `RDF` are always accepted. -/
theorem exec_followsTable {i : Instr} {s t : State} (h : exec i s = .next t) : FollowsTable (.ok i) s t := by
  obtain ⟨rfl, rfl⟩ | ⟨rfl, rfl⟩ | ⟨b, rfl, hpush⟩ | ⟨rfl, hdecode⟩ | ⟨rfl, hnext⟩ | ⟨rfl, rfl⟩ | ⟨f, rfl, hrdf⟩ |
    ⟨g, rfl, rfl⟩ := exec_cases h
  · exact .inr ⟨rfl, not_rejected_accept _, rfl⟩
  · exact .inr ⟨rfl, not_rejected_accept _, rfl⟩
  · exact execPush_followsTable hpush
  · obtain ⟨v, -, rfl⟩ := execDecode_next hdecode
    exact .inr ⟨rfl, not_rejected_accept _, rfl⟩
  · exact execNext_followsTable hnext
  · exact .inr ⟨rfl, not_rejected_accept _, rfl⟩
  · exact execRdf_followsTable hrdf
  · exact .inr ⟨rfl, not_rejected_respond _ s, rfl⟩

/-- A step that takes a command word follows the table of rejections in the state without that word at the port. -/
theorem step_followsTable {s t : State} {w : Word} {rest : List HostInput} (hp : s.port = .command w :: rest)
    (h : step s = .next t) : FollowsTable (decode w) { s with port := rest } t := by
  obtain ⟨hwf, -⟩ := step_cases h
  rw [step_command hwf hp] at h
  cases hd : decode w with
  | error r =>
    rw [runWord_of_decode_error hd] at h
    cases h
    rw [← rejectWith_of_ne_overrun (by decide)]
    exact .of_reason rfl (by decide)
  | ok i =>
    rw [runWord_of_decode hd] at h
    exact exec_followsTable h

/-! ### The stages of `DECODE` one by one (R89, R90) -/

/-- What `DECODE` computes when no read faults: each stage that fails, with its cause and the checksums it has seen, and
the count stage with the raw count. -/
theorem validate_cases {s : State} {v : Verdict} (h : validate s = .ok v) :
    (s.ovf = true ∧ v = Verdict.only .overrun) ∨
    (s.len.toNat < s.cfg.h + 2 ∧ v = Verdict.only .truncated) ∨
    ∃ sum carried, csum16 s = .ok sum ∧ carriedChecksum s = .ok carried ∧
      ((sum ≠ carried ∧ v = ⟨.csumMismatch, 0#16, 0#16, sum, carried, 0#16⟩) ∨
       (sum = carried ∧ ∃ raw, headerCount s = .ok raw ∧
          v = countStage sum carried raw (maxFaces s.cfg s.len.toNat))) := by
  unfold validate at h
  split at h
  · rename_i hovf
    cases h
    exact .inl ⟨hovf, rfl⟩
  split at h
  · rename_i htrunc
    cases h
    exact .inr (.inl ⟨htrunc, rfl⟩)
  obtain ⟨sum, hsum, h⟩ := exists_of_bind_eq_ok h
  obtain ⟨carried, hcarried, h⟩ := exists_of_bind_eq_ok h
  refine .inr (.inr ⟨sum, carried, hsum, hcarried, ?_⟩)
  split at h
  · rename_i hne
    cases h
    exact .inl ⟨hne, rfl⟩
  · rename_i hsame
    obtain ⟨raw, hraw, h⟩ := exists_of_bind_eq_ok h
    cases h
    exact .inr ⟨not_not.mp hsame, raw, hraw, rfl⟩

/-- The result of the plain-arithmetic reading, stage by stage. -/
theorem frameVerdict_result (c : Config) (len : Nat) (ovf : Bool) (f : Nat → Byte) :
    (frameVerdict c len ovf f).result =
      if ovf = true then .overrun
      else if len < c.h + 2 then .truncated
      else if frameSum f (len - 2) % 65536 ≠ (f (len - 2)).toNat + 256 * (f (len - 1)).toNat then .csumMismatch
      else if frameLE f c.cntOff c.cntW > min c.m ((len - c.h - 2) / c.r) then .invalidCount
      else .ok := by
  simp only [frameVerdict, apply_ite Verdict.result]

/-! ### Blocks side by side (R98) -/

theorem stepBlock_of_step {n : Nat} {k : Fin n} {blocks : Vector State n} {s : State} (h : step blocks[k] = .next s) :
    stepBlock k blocks = .next (blocks.set k s) := by
  simp only [stepBlock, h]

/-- A step of the whole that answers is the step of the chosen block, put in its place. -/
theorem stepBlock_next {n : Nat} {k : Fin n} {blocks after : Vector State n} (h : stepBlock k blocks = .next after) :
    ∃ s, step blocks[k] = .next s ∧ after = blocks.set k s := by
  unfold stepBlock at h
  split at h
  · rename_i s hs
    cases h
    exact ⟨s, hs, rfl⟩
  · cases h
  · cases h

/-! ### The obligations of rejections and errors -/

/-- Settles O8: a well-formed block takes its input, and with none at the port that is the idle step. -/
theorem idleStepHoldsState : Obligations.IdleStepHoldsState := by
  intro s hwf hp
  have hidle : takeInput s = .next (idle s) := by simp only [takeInput, hp]
  exact (step_of_wf hwf).trans hidle

/-- Settles O25: each result names the stage of `validate_cases` that gave it, and the registers are read off there. -/
theorem decodeErrorsRecordWhatWasSeen : Obligations.DecodeErrorsRecordWhatWasSeen := by
  refine ⟨rfl, fun s t h => ?_⟩
  obtain ⟨v, hv, rfl⟩ := execDecode_next h
  obtain ⟨hovf, rfl⟩ | ⟨htrunc, rfl⟩ | ⟨sum, carried, hsum, hcarried, ⟨hne, rfl⟩ | ⟨rfl, raw, hraw, rfl⟩⟩ :=
    validate_cases hv
  · exact ⟨fun _ => ⟨hovf, rfl, rfl, rfl, rfl⟩, nofun, nofun, nofun, nofun⟩
  · exact ⟨nofun, fun _ => ⟨htrunc, rfl, rfl, rfl, rfl⟩, nofun, nofun, nofun⟩
  · exact ⟨nofun, nofun, fun _ => ⟨hne, hsum, hcarried, rfl, rfl⟩, nofun, nofun⟩
  · unfold countStage
    split
    · rename_i hmany
      exact ⟨nofun, nofun, nofun, fun _ => ⟨rfl, hsum, raw, hraw, hmany, rfl, rfl⟩, nofun⟩
    · exact ⟨nofun, nofun, nofun, nofun, nofun⟩

/-- Settles O26: `DECODE` of a held frame has the result of the plain-arithmetic reading, which asks the four conditions
in order. -/
theorem firstFailingStageDecides : Obligations.FirstFailingStageDecides := by
  intro s f hwf hf
  refine ⟨_, execDecode_of_holds hwf hf, ?_⟩
  simp only [accept_result, setVerdict_result, frameVerdict_result]
  split
  · rename_i hovf
    simp [hovf]
  rename_i hovf
  split
  · rename_i htrunc
    simp [hovf, htrunc]
  rename_i htrunc
  split
  · rename_i hmismatch
    simp [hovf, htrunc, hmismatch]
  rename_i hmismatch
  split
  · rename_i hmany
    simp [hovf, htrunc, hmismatch, hmany]
  · rename_i hmany
    simp [hovf, htrunc, hmismatch, hmany]

/-- Settles O39: a rejected word is one the table names a reason for, and `rejectWith` shows what that writes. -/
theorem rejectionChangesNothingElse : Obligations.RejectionChangesNothingElse := by
  intro s t w rest hp h hrej
  obtain ⟨hr, rfl⟩ | ⟨-, hnot, -⟩ := step_followsTable hp h
  · exact ⟨rejectWith_eq _ _, hr⟩
  · exact absurd hrej hnot

/-- Settles O40: a step that takes a word follows the table, whose reason does not see the port. -/
theorem rejectionReasonsFollowTheTable : Obligations.RejectionReasonsFollowTheTable :=
  ⟨rfl, fun _ _ _ _ hp h => (step_followsTable hp h).rejected_and_rej⟩

/-- Settles O49: the step of the whole sets the chosen block to its own next state, and sees no other block. -/
theorem blocksAreIndependent : Obligations.BlocksAreIndependent := by
  refine fun n k blocks => ⟨fun s hs => stepBlock_of_step hs, fun after h => ?_, fun other hsame after h => ?_⟩
  · obtain ⟨s, hs, rfl⟩ := stepBlock_next h
    refine ⟨?_, fun j hj => ?_⟩
    · simpa using hs
    · simp [Vector.getElem_set_ne, Fin.val_ne_of_ne hj.symm]
  · obtain ⟨s, hs, rfl⟩ := stepBlock_next h
    exact ⟨_, stepBlock_of_step (hsame ▸ hs), by simp⟩

end Sys2Proof.Machine

/-! ## Reset (70_reset_and_hazards.md)

The reset input leaves the cleared state, as `CLEAR` does, and gives no response. -/

namespace Sys2Proof.Machine

/-- The step of a well-formed block whose oldest input is a reset. -/
theorem step_reset {s : State} (hwf : s.cfg.wf = true) {rest : List HostInput} (hp : s.port = .reset :: rest) :
    step s = .next (clearState { s with port := rest }) := by
  simp only [step_of_wf hwf, takeInput, hp, takeReset_eq]

/-- `CLEAR` and the reset input leave the same state, but for what is no state of the spec: the waiting inputs and the
response (R101). -/
theorem clearState_withPort_eq_clear (s : State) (rest : List HostInput) :
    ∃ u, exec .clear s = .next u ∧
      clearState { s with port := rest } = { u with port := rest, resp := none } :=
  ⟨accept (clearState s), rfl, rfl⟩

/-- Settles O9: the reset input leaves the cleared state, whose components are read off. -/
theorem resetInputRestoresResetValues : Obligations.ResetInputRestoresResetValues := fun s rest hwf hp =>
  ⟨_, step_reset hwf hp, rfl, rfl, fun _ => rfl, rfl, rfl, rfl, rfl, rfl, rfl, rfl, rfl, rfl, rfl, rfl, rfl,
    clearState_withPort_eq_clear s rest⟩

end Sys2Proof.Machine
